-- ==== Sys2Proof/Word.lean ====
section
/-! DEFINITION. The two machine words of the decoder block (00_scope.md R14, R17): a byte is 8 bits, a word 16.
Everything that computes on them (field extraction, sign extension, byte order) stands in Machine/Bitfield.lean. -/

namespace Sys2Proof

/-- `Byte` of R17: an 8-bit vector, bit 0 the least significant (R16). -/
abbrev Byte := BitVec 8

/-- `Word` of R17: a 16-bit vector. -/
abbrev Word := BitVec 16

end Sys2Proof
end

