-- ==== Sys2Proof/Machine/Records.lean ====
section
/-! DEFINITION. The record types the block produces (10_state.md section 1). They are symbolic: the spec gives no numeric
code but `OperationKind.unknown` as the zero-value (D23), which stands first here and so is the type's default. -/

namespace Sys2Proof.Machine

/-- R30: the closed set of 21 register names; `unknown` is the sentinel "not applicable" (R32). The block only names
8086 registers and holds none (R33). -/
inductive RegisterId where
  | al | cl | dl | bl | ah | ch | dh | bh
  | ax | cx | dx | bx | sp | bp | si | di
  | bxSi | bxDi | bpSi | bpDi
  | unknown
  deriving DecidableEq, Repr

/-- R34: `displacement` means its signed value, `directAddress` its unsigned one; `base = unknown` is an absent base. -/
structure MemoryOperand where
  base             : RegisterId
  displacement     : Word
  directAddress    : Word
  hasDisplacement  : Bool
  hasDirectAddress : Bool
  deriving DecidableEq, Repr

/-- R37: how many bytes an immediate took; `unspecified` is the type's default and is never written. -/
inductive ImmWidth where
  | unspecified
  | byte
  | word
  deriving DecidableEq, Repr, Inhabited

/-- R37: `value` is the raw pattern read, never sign-extended. -/
structure ImmediateOperand where
  value : Word
  width : ImmWidth
  deriving DecidableEq, Repr

/-- R39: one operand slot of a record. -/
inductive OperandKind where
  | none
  | register (r : RegisterId)
  | memory (m : MemoryOperand)
  | immediate (i : ImmediateOperand)
  deriving DecidableEq, Repr

/-- R40: the closed set of 26 operations. `unknown` is "the zero-value", so it stands first; `unknown` and `ret` never
appear in an emitted record (R41). -/
inductive OperationKind where
  | unknown
  | mov | add | sub | cmp
  | je | jl | jle | jb | jbe | jp | jo | js | jne | jnl | jg | jnb | ja | jnp | jno | jns
  | loop | loopz | loopnz | jcxz
  | ret
  deriving DecidableEq, Repr, Inhabited

/-- R42: the record of one decoded instruction. `operands.1` is the spec's `operands[0]` (the destination), `operands.2`
its `operands[1]`; the last six fields are the decode-scratch fields (R45). -/
structure Instruction where
  address       : Nat
  operation     : OperationKind
  operands      : OperandKind × OperandKind
  rawBytes      : List Byte
  directionBit  : BitVec 1
  widthBit      : BitVec 1
  signExtendBit : BitVec 1
  modeBits      : BitVec 2
  regBits       : BitVec 3
  rmBits        : BitVec 3
  deriving DecidableEq, Repr

/-- The scratch bits of one decode before the record is put together (R45, R193). -/
structure Scratch where
  direction  : BitVec 1
  width      : BitVec 1
  signExtend : BitVec 1
  mode       : BitVec 2
  reg        : BitVec 3
  rm         : BitVec 3
  deriving DecidableEq, Repr

end Sys2Proof.Machine
end

