-- ==== Sys2Proof/Syntax/Fields.lean ====
section
/-! DEFINITION. The operand fields an instruction of Syntax.lean carries, as the bytes spell them: no bit that the encoding
leaves free is dropped. What the fields MEAN as record operands stands in Machine/Operands.lean. -/

namespace Sys2Proof

/-- The `mod` and `rm` fields of a ModRM byte with the displacement or address bytes that follow it: the five cases of
41_addressing.md section 2. A word field holds the value read, its first byte in bits 7:0 (R80). -/
inductive RmField where
  /-- R161: `mod = 00`, `rm` not 110, no displacement byte. -/
  | base (rm : BitVec 3)
  /-- R162: `mod = 00`, `rm = 110`, a two-byte direct address. -/
  | direct (address : Word)
  /-- R163: `mod = 01`, one displacement byte, kept as read. -/
  | disp8 (rm : BitVec 3) (d8 : Byte)
  /-- R164: `mod = 10`, two displacement bytes. -/
  | disp16 (rm : BitVec 3) (d16 : Word)
  /-- R165: `mod = 11`, a register. -/
  | register (rm : BitVec 3)
  deriving DecidableEq, Repr

/-- The immediate bytes of an instruction as read: one byte or one word (R111, R187). -/
inductive ImmField where
  | imm8 (b : Byte)
  | imm16 (v : Word)
  deriving DecidableEq, Repr

/-- The three arithmetic operations of families 5 to 7 (40_bitfield.md R148). -/
inductive ArithOp where
  | add
  | sub
  | cmp
  deriving DecidableEq, Repr

/-- What the opcode byte alone selects (42_classifier.md R182). -/
inductive Family where
  | f1
  | f2
  | f3
  | f4Load
  | f4Store
  | f5
  | f6
  | f7
  | f8
  | unrecognized
  deriving DecidableEq, Repr

end Sys2Proof
end

