-- ==== Sys2Proof/Machine/Bitfield.lean ====
section
/-! DEFINITION. The Bitfield Extractor (40_bitfield.md): pure functions that slice fields out of bytes already read, the two
lookup tables, byte order and extension (R17), and the sizes of displacements and immediates (30_encoding.md R110, R111). -/

namespace Sys2Proof.Machine

/-! ### Words (R17, R80) -/

/-- R17: the word whose bits 7:0 are `b` and bits 15:8 are 0. -/
def zext16 (b : Byte) : Word := b.setWidth 16

/-- R17: the word whose bits 7:0 are `b` and bits 15:8 all equal `b[7]`. -/
def sext16 (b : Byte) : Word := b.signExtend 16

/-- R17, R79: two bytes as a word, `hi` in bits 15:8. -/
def wordOf (hi lo : Byte) : Word := hi ++ lo

/-- Bits 7:0 of a word, the first byte of its two in the stream (R79). -/
def lowByte (v : Word) : Byte := v.extractLsb' 0 8

/-- Bits 15:8 of a word, the second byte of its two in the stream (R79). -/
def highByte (v : Word) : Byte := v.extractLsb' 8 8

/-! ### Extractors (R141 to R144) -/

/-- R141: `direction_bit(b) = b[1]`. -/
def directionBit (b : Byte) : BitVec 1 := b.extractLsb' 1 1

/-- R142: `width_bit(b) = b[0]`. -/
def widthBit (b : Byte) : BitVec 1 := b.extractLsb' 0 1

/-- R142: family 3 has its width bit at `b[3]`. -/
def widthBitShort (b : Byte) : BitVec 1 := b.extractLsb' 3 1

/-- R142: family 3 has its register field at `b[2:0]`. -/
def regShort (b : Byte) : BitVec 3 := b.extractLsb' 0 3

/-- R143: the sign-extend bit `s = b[1]` of family 6. -/
def signBit (b : Byte) : BitVec 1 := b.extractLsb' 1 1

/-- R106: the operation field `b[5:3]` of the opcode byte of families 5 and 7. -/
def opField (b : Byte) : BitVec 3 := b.extractLsb' 3 3

/-- R144: `mode_reg_rm(b) = (b[7:6], b[5:3], b[2:0])`. -/
def modeRegRm (b : Byte) : BitVec 2 × BitVec 3 × BitVec 3 :=
  (b.extractLsb' 6 2, b.extractLsb' 3 3, b.extractLsb' 0 3)

/-! ### Lookup tables (R145, R146, R148) -/

/-- The 8-bit column of R145's table. -/
def byteRegister (f : BitVec 3) : RegisterId :=
  match f with
  | 0 => .al
  | 1 => .cl
  | 2 => .dl
  | 3 => .bl
  | 4 => .ah
  | 5 => .ch
  | 6 => .dh
  | 7 => .bh

/-- The 16-bit column of R145's table. -/
def wordRegister (f : BitVec 3) : RegisterId :=
  match f with
  | 0 => .ax
  | 1 => .cx
  | 2 => .dx
  | 3 => .bx
  | 4 => .sp
  | 5 => .bp
  | 6 => .si
  | 7 => .di

/-- R145: `register_for(w, f)`. -/
def registerFor (w : BitVec 1) (f : BitVec 3) : RegisterId :=
  if w = 0 then byteRegister f else wordRegister f

/-- R146: `effective_address_register(rm)`. -/
def effectiveAddressRegister (rm : BitVec 3) : RegisterId :=
  match rm with
  | 0 => .bxSi
  | 1 => .bxDi
  | 2 => .bpSi
  | 3 => .bpDi
  | 4 => .si
  | 5 => .di
  | 6 => .bp
  | 7 => .bx

/-- R148: `arith_op(f)`; a selector that names no operation is `none`. -/
def arithOp (f : BitVec 3) : Option ArithOp :=
  if f = 0b000 then some .add
  else if f = 0b101 then some .sub
  else if f = 0b111 then some .cmp
  else none

/-- The selector of R148 that names an operation: what an encoder writes. -/
def arithSelector (op : ArithOp) : BitVec 3 :=
  match op with
  | .add => 0b000
  | .sub => 0b101
  | .cmp => 0b111

/-- The record's name of an arithmetic operation (R40). -/
def arithKind (op : ArithOp) : OperationKind :=
  match op with
  | .add => .add
  | .sub => .sub
  | .cmp => .cmp

/-! ### ModRM fields of an addressing case (R161 to R165) -/

/-- The `mod` field that spells an addressing case. -/
def modeOf (m : RmField) : BitVec 2 :=
  match m with
  | .base _ => 0b00
  | .direct _ => 0b00
  | .disp8 _ _ => 0b01
  | .disp16 _ _ => 0b10
  | .register _ => 0b11

/-- The `rm` field that spells an addressing case; the direct address is the escape `rm = 110` (R166). -/
def rmOf (m : RmField) : BitVec 3 :=
  match m with
  | .base rm => rm
  | .direct _ => 0b110
  | .disp8 rm _ => rm
  | .disp16 rm _ => rm
  | .register rm => rm

/-! ### Sizes (R110, R111) -/

/-- R110: `D(mod, rm)`, the displacement or address bytes after a ModRM byte. -/
def displacementBytes (mod : BitVec 2) (rm : BitVec 3) : Nat :=
  if mod = 0b00 then (if rm = 0b110 then 2 else 0)
  else if mod = 0b01 then 1
  else if mod = 0b10 then 2
  else 0

/-- R110 at an addressing case. -/
def rmBytes (m : RmField) : Nat := displacementBytes (modeOf m) (rmOf m)

/-- R188: the immediate of families 2, 3 and 7 takes `1 + w` bytes. -/
def immBytes (w : BitVec 1) : Nat := 1 + w.toNat

/-- R188: the immediate of family 6 takes 2 bytes when `s = 0` and `w = 1`, and 1 otherwise. -/
def immBytesSigned (s w : BitVec 1) : Nat := if s = 0 ∧ w = 1 then 2 else 1

end Sys2Proof.Machine
end

