-- ==== Sys2Proof/Machine/State.lean ====
section
/-! DEFINITION. The state of the decoder block between steps (10_state.md section 2), its error conditions and the model's
refusals. A decode's working values (R59: `pos`, the bytes read, the family) survive no step, so they are arguments of
the functions of Cursor.lean and Decode.lean, not state; the lookup tables (R61) are constants. -/

namespace Sys2Proof.Machine

/-- The buffer's bytes: strictly rising offsets, no cell that holds what an unlisted offset reads as (`unlistedByte` in
Ops.lean). Which offsets exist is said by `State.len` alone (R70). -/
abbrev Memory := List Host.Cell

/-- R51: the Decode Loop's state. -/
inductive LoopState where
  | scanning
  | done
  deriving DecidableEq, Repr

/-- R52: the termination status. -/
inductive Reason where
  | none
  | exhausted
  | outOfData
  | unrecognizedOpcode
  deriving DecidableEq, Repr

/-- The block's whole state between steps (R48 to R53). -/
structure State where
  /-- `BUF`, R48. -/
  buf    : Memory
  /-- `LEN`, R48: the number of bytes of the buffer, offsets `0 .. len - 1`. -/
  len    : Nat
  /-- `START`, R53. -/
  start  : Nat
  /-- `CUR`, R49: the committed cursor, the block's program counter. -/
  cur    : Nat
  /-- `OUT`, R50: the records emitted, oldest first. -/
  out    : List Instruction
  /-- `ST`, R51. -/
  st     : LoopState
  /-- `REASON`, R52. -/
  reason : Reason
  deriving DecidableEq, Repr

/-- The spec's error taxonomy (60_exceptions.md R300, R302), with the information a `raise` carries. -/
inductive Fault where
  /-- R300: raised by `Cursor.fetch` and `Cursor.peekByte` (Machine/Cursor.lean) when `need` bytes were asked for at
  offset `pos` and fewer remain. Safe: the Decode Loop catches it (`takeError`, R305), so no step answers with it. -/
  | outOfData (pos need : Nat)
  /-- R302: raised by `decodeAt` (Decode.lean) when the opcode byte `byte` at offset `pos`, or in family 6 the `reg`
  field after it, matches no pattern. Safe: the Decode Loop catches it likewise, so no step answers with it. -/
  | unrecognizedOpcode (pos : Nat) (byte : Byte)
  deriving DecidableEq, Repr

/-- What the model gives no meaning to. -/
inductive Refusal where
  /-- An instruction with no meaning yet, by its mnemonic: raised by no arm of `exec`. Safe. -/
  | notModelled (mnemonic : String)
  /-- R89, R335, I10: the host wrote the buffer during a session; raised by `transact` (Machine/Interface.lean) only.
  Safe: the spec gives such a run no meaning. -/
  | bufferWrittenDuringSession (offset : Nat)
  /-- R12, R330: the host asked for a session with `START > LEN`; raised by `transact` only. Safe: `START <= LEN` is the
  host's duty and the spec says nothing of a session without it. -/
  | startBeyondLength (start len : Nat)
  /-- R303, R333, I8: there is no buffer, so the session is never started; raised by `transact` only. Safe. -/
  | sourceUnavailable
  deriving DecidableEq, Repr

/-- R62, R330, R331: the block right after `reset` over the host's inputs at their defaults, an empty buffer
(`LEN = 0`, log entry 2) and `START = 0`. It is `Done` with `exhausted`, because nothing remains to decode. -/
def State.reset : State where
  buf    := []
  len    := 0
  start  := 0
  cur    := 0
  out    := []
  st     := .done
  reason := .exhausted

end Sys2Proof.Machine
end

