-- ==== Sys2Proof/Machine/Cursor.lean ====
section
/-! DEFINITION. The Byte Cursor (20_memory.md section 2): bounded reads over the bytes that remain. A cursor is a working value
of one decode (R59); the committed cursor is `State.cur`. -/

namespace Sys2Proof.Machine

/-- The working cursor of a decode: the offset `pos` and the bytes `BUF[pos .. LEN-1]` that remain (R73). -/
structure Cursor where
  pos  : Nat
  rest : List Byte
  deriving DecidableEq, Repr

/-- What a read answers: a value and the moved cursor, or the error that aborts the decode (R19, R76). -/
inductive Read (α : Type) where
  | ok (v : α) (c : Cursor)
  | fail (f : Fault)
  deriving DecidableEq, Repr

/-- One read and then the next; the first error is the result and no later read is made (R191). -/
def Read.andThen {α β : Type} (r : Read α) (k : α → Cursor → Read β) : Read β :=
  match r with
  | .ok v c => k v c
  | .fail f => .fail f

/-- R73: `position()`. -/
def Cursor.position (c : Cursor) : Nat := c.pos

/-- R73: `remaining()`, that is `LEN - pos`. -/
def Cursor.remaining (c : Cursor) : Nat := c.rest.length

/-- R74: `peek_byte(k)` reads `BUF[pos + k]` and does not advance; past the end it raises `OutOfData`. -/
def Cursor.peekByte (c : Cursor) (k : Nat) : Read Byte :=
  match c.rest[k]? with
  | some b => .ok b c
  | none => .fail (.outOfData c.pos (k + 1))

/-- R75: `Fetch(n)`. The check precedes the read: a short read reads nothing and moves nothing. -/
def Cursor.fetch (c : Cursor) (n : Nat) : Read (List Byte) :=
  if n ≤ c.remaining then .ok (c.rest.take n) ⟨c.pos + n, c.rest.drop n⟩
  else .fail (.outOfData c.pos n)

/-- `Fetch(1)` as a byte. -/
def Cursor.fetchByte (c : Cursor) : Read Byte :=
  (c.fetch 1).andThen fun v c => .ok (v.getD 0 0) c

/-- R80: `Fetch16()`, the first byte read in bits 7:0. -/
def Cursor.fetchWord (c : Cursor) : Read Word :=
  (c.fetch 2).andThen fun v c => .ok (wordOf (v.getD 1 0) (v.getD 0 0)) c

end Sys2Proof.Machine
end

