-- ==== Sys2Proof/Syntax.lean ====
section
/-! DEFINITION. The instructions the block decodes: one constructor per row of spec/opcode_table.json (34 rows, R119), each
carrying every field of its encoding that is not fixed by the row. -/

namespace Sys2Proof

/-- One instruction of the decoded subset, as its bytes spell it. `d`, `w` and `s` are the direction, width and
sign-extend bits; `reg` the ModRM (or family-3) register field. -/
inductive Instr where
  -- families 1 to 4, MOV (43_mov.md)
  /-- MOV_RM_REG, R200. -/
  | movRmReg (d w : BitVec 1) (reg : BitVec 3) (rm : RmField)
  /-- MOV_RM_IMM, R201; `reg` is not examined but kept (R120). -/
  | movRmImm (w : BitVec 1) (reg : BitVec 3) (rm : RmField) (imm : ImmField)
  /-- MOV_REG_IMM, R202. -/
  | movRegImm (w : BitVec 1) (reg : BitVec 3) (imm : ImmField)
  /-- MOV_ACC_MEM, R203. -/
  | movAccMem (w : BitVec 1) (address : Word)
  /-- MOV_MEM_ACC, R204. -/
  | movMemAcc (w : BitVec 1) (address : Word)
  -- family 5 (44_arith.md)
  /-- ADD_RM_REG, R221. -/
  | addRmReg (d w : BitVec 1) (reg : BitVec 3) (rm : RmField)
  /-- SUB_RM_REG, R222. -/
  | subRmReg (d w : BitVec 1) (reg : BitVec 3) (rm : RmField)
  /-- CMP_RM_REG, R223. -/
  | cmpRmReg (d w : BitVec 1) (reg : BitVec 3) (rm : RmField)
  -- family 6
  /-- ADD_RM_IMM, R225. -/
  | addRmImm (s w : BitVec 1) (rm : RmField) (imm : ImmField)
  /-- SUB_RM_IMM, R226. -/
  | subRmImm (s w : BitVec 1) (rm : RmField) (imm : ImmField)
  /-- CMP_RM_IMM, R227. -/
  | cmpRmImm (s w : BitVec 1) (rm : RmField) (imm : ImmField)
  -- family 7
  /-- ADD_ACC_IMM, R229. -/
  | addAccImm (w : BitVec 1) (imm : ImmField)
  /-- SUB_ACC_IMM, R230. -/
  | subAccImm (w : BitVec 1) (imm : ImmField)
  /-- CMP_ACC_IMM, R231. -/
  | cmpAccImm (w : BitVec 1) (imm : ImmField)
  -- family 8, short jumps and loops (45_jumps.md R243 to R262)
  | je (disp8 : Byte)
  | jl (disp8 : Byte)
  | jle (disp8 : Byte)
  | jb (disp8 : Byte)
  | jbe (disp8 : Byte)
  | jp (disp8 : Byte)
  | jo (disp8 : Byte)
  | js (disp8 : Byte)
  | jne (disp8 : Byte)
  | jnl (disp8 : Byte)
  | jg (disp8 : Byte)
  | jnb (disp8 : Byte)
  | ja (disp8 : Byte)
  | jnp (disp8 : Byte)
  | jno (disp8 : Byte)
  | jns (disp8 : Byte)
  | loop (disp8 : Byte)
  | loopz (disp8 : Byte)
  | loopnz (disp8 : Byte)
  | jcxz (disp8 : Byte)
  deriving DecidableEq, Repr

end Sys2Proof
end

