-- ==== Sys2Proof/WellFormed.lean ====
section
/-! DEFINITION. Which terms of `Instr` some byte sequence spells. Two checks: an addressing case without displacement is not
the direct-address escape `rm = 110` (R166), and an immediate has the size its width (and sign) bits give it (R188). -/

namespace Sys2Proof

open Machine

/-- R161, R166: under `mod = 00` the value `rm = 110` is the direct address, so no based operand has it. -/
def RmField.wf (m : RmField) : Bool :=
  match m with
  | .base rm => rm != 0b110
  | .direct _ => true
  | .disp8 _ _ => true
  | .disp16 _ _ => true
  | .register _ => true

/-- R187: an immediate of `n` bytes. -/
def ImmField.sized (n : Nat) (imm : ImmField) : Bool :=
  match imm with
  | .imm8 _ => n == 1
  | .imm16 _ => n == 2

/-- An instruction that some byte sequence spells. -/
def Instr.wf (i : Instr) : Bool :=
  match i with
  | .movRmReg _ _ _ rm => rm.wf
  | .movRmImm w _ rm imm => rm.wf && imm.sized (immBytes w)
  | .movRegImm w _ imm => imm.sized (immBytes w)
  | .movAccMem _ _ => true
  | .movMemAcc _ _ => true
  | .addRmReg _ _ _ rm => rm.wf
  | .subRmReg _ _ _ rm => rm.wf
  | .cmpRmReg _ _ _ rm => rm.wf
  | .addRmImm s w rm imm => rm.wf && imm.sized (immBytesSigned s w)
  | .subRmImm s w rm imm => rm.wf && imm.sized (immBytesSigned s w)
  | .cmpRmImm s w rm imm => rm.wf && imm.sized (immBytesSigned s w)
  | .addAccImm w imm => imm.sized (immBytes w)
  | .subAccImm w imm => imm.sized (immBytes w)
  | .cmpAccImm w imm => imm.sized (immBytes w)
  | .je _ => true
  | .jl _ => true
  | .jle _ => true
  | .jb _ => true
  | .jbe _ => true
  | .jp _ => true
  | .jo _ => true
  | .js _ => true
  | .jne _ => true
  | .jnl _ => true
  | .jg _ => true
  | .jnb _ => true
  | .ja _ => true
  | .jnp _ => true
  | .jno _ => true
  | .jns _ => true
  | .loop _ => true
  | .loopz _ => true
  | .loopnz _ => true
  | .jcxz _ => true

end Sys2Proof
end

