-- ==== Sys2Proof/Decode.lean ====
section
/-! DEFINITION. The Opcode Classifier and Instruction Builder's reading half (42_classifier.md): bytes to `Instr`, total, an
error by name where the bytes are short or match no pattern. After it the encoder, and the words of the host's opcode
table. What an instruction's decode WRITES (its record) is its meaning, in Machine/. -/

namespace Sys2Proof

open Machine

/-! ### Dispatch on the opcode byte -/

/-- R182: `Classify(b0)`, its tests in the spec's order. -/
def classify (b0 : Byte) : Family :=
  if b0 &&& 0xFC = 0x88 then .f1
  else if b0 &&& 0xFE = 0xC6 then .f2
  else if b0 &&& 0xF0 = 0xB0 then .f3
  else if b0 &&& 0xFE = 0xA0 then .f4Load
  else if b0 &&& 0xFE = 0xA2 then .f4Store
  else if b0 &&& 0xFC = 0x00 ∨ b0 &&& 0xFC = 0x28 ∨ b0 &&& 0xFC = 0x38 then .f5
  else if b0 &&& 0xFC = 0x80 then .f6
  else if b0 &&& 0xFE = 0x04 ∨ b0 &&& 0xFE = 0x2C ∨ b0 &&& 0xFE = 0x3C then .f7
  else if (0x70 ≤ b0 ∧ b0 ≤ 0x7F) ∨ (0xE0 ≤ b0 ∧ b0 ≤ 0xE3) then .f8
  else .unrecognized

/-- R241: the twenty family-8 opcode bytes, each with its instruction. -/
def jumpForm (b0 : Byte) : Option (Byte → Instr) :=
  match b0 with
  | 0x70 => some .jo
  | 0x71 => some .jno
  | 0x72 => some .jb
  | 0x73 => some .jnb
  | 0x74 => some .je
  | 0x75 => some .jne
  | 0x76 => some .jbe
  | 0x77 => some .ja
  | 0x78 => some .js
  | 0x79 => some .jns
  | 0x7A => some .jp
  | 0x7B => some .jnp
  | 0x7C => some .jl
  | 0x7D => some .jnl
  | 0x7E => some .jle
  | 0x7F => some .jg
  | 0xE0 => some .loopnz
  | 0xE1 => some .loopz
  | 0xE2 => some .loop
  | 0xE3 => some .jcxz
  | _ => none

/-- The family-5 instruction of an operation. -/
def rmRegForm (op : ArithOp) (d w : BitVec 1) (reg : BitVec 3) (rm : RmField) : Instr :=
  match op with
  | .add => .addRmReg d w reg rm
  | .sub => .subRmReg d w reg rm
  | .cmp => .cmpRmReg d w reg rm

/-- The family-6 instruction of an operation. -/
def rmImmForm (op : ArithOp) (s w : BitVec 1) (rm : RmField) (imm : ImmField) : Instr :=
  match op with
  | .add => .addRmImm s w rm imm
  | .sub => .subRmImm s w rm imm
  | .cmp => .cmpRmImm s w rm imm

/-- The family-7 instruction of an operation. -/
def accImmForm (op : ArithOp) (w : BitVec 1) (imm : ImmField) : Instr :=
  match op with
  | .add => .addAccImm w imm
  | .sub => .subAccImm w imm
  | .cmp => .cmpAccImm w imm

/-! ### Reading the bytes after the opcode byte -/

/-- R167, its reads: the addressing case of `mod` and `rm` with the bytes it needs and no other (R168). -/
def readRm (mod : BitVec 2) (rm : BitVec 3) (c : Cursor) : Read RmField :=
  if mod = 0b11 then .ok (.register rm) c
  else if mod = 0b00 ∧ rm = 0b110 then c.fetchWord.andThen fun a c => .ok (.direct a) c
  else if mod = 0b00 then .ok (.base rm) c
  else if mod = 0b01 then c.fetchByte.andThen fun d8 c => .ok (.disp8 rm d8) c
  else c.fetchWord.andThen fun d16 c => .ok (.disp16 rm d16) c

/-- R187, its reads: an immediate of `n` bytes, `n` 1 or 2. -/
def readImm (n : Nat) (c : Cursor) : Read ImmField :=
  if n = 1 then c.fetchByte.andThen fun b c => .ok (.imm8 b) c
  else c.fetchWord.andThen fun v c => .ok (.imm16 v) c

/-- The ModRM byte and what it needs, when its `reg` field is not a dispatch key (families 1, 2 and 5). -/
def readModRm (c : Cursor) : Read (BitVec 3 × RmField) :=
  c.fetchByte.andThen fun b1 c =>
    let (mod, reg, rm) := modeRegRm b1
    (readRm mod rm c).andThen fun m c => .ok (reg, m) c

/-! ### The whole decode -/

/-- R193, its reads and dispatch, in the order of R191. `c.pos` is the offset of the opcode byte. -/
def decodeAt (c : Cursor) : Read Instr :=
  let a := c.pos
  c.fetchByte.andThen fun b0 c =>
    match classify b0 with
    | .unrecognized => .fail (.unrecognizedOpcode a b0)
    | .f1 =>
      (readModRm c).andThen fun (reg, m) c => .ok (.movRmReg (directionBit b0) (widthBit b0) reg m) c
    | .f2 =>
      (readModRm c).andThen fun (reg, m) c =>
        (readImm (immBytes (widthBit b0)) c).andThen fun imm c => .ok (.movRmImm (widthBit b0) reg m imm) c
    | .f3 =>
      (readImm (immBytes (widthBitShort b0)) c).andThen fun imm c =>
        .ok (.movRegImm (widthBitShort b0) (regShort b0) imm) c
    | .f4Load => c.fetchWord.andThen fun address c => .ok (.movAccMem (widthBit b0) address) c
    | .f4Store => c.fetchWord.andThen fun address c => .ok (.movMemAcc (widthBit b0) address) c
    | .f5 =>
      match arithOp (opField b0) with
      | none => .fail (.unrecognizedOpcode a b0)
      | some op =>
        (readModRm c).andThen fun (reg, m) c => .ok (rmRegForm op (directionBit b0) (widthBit b0) reg m) c
    | .f6 =>
      c.fetchByte.andThen fun b1 c =>
        let (mod, reg, rm) := modeRegRm b1
        match arithOp reg with
        | none => .fail (.unrecognizedOpcode a b0)
        | some op =>
          (readRm mod rm c).andThen fun m c =>
            (readImm (immBytesSigned (signBit b0) (widthBit b0)) c).andThen fun imm c =>
              .ok (rmImmForm op (signBit b0) (widthBit b0) m imm) c
    | .f7 =>
      match arithOp (opField b0) with
      | none => .fail (.unrecognizedOpcode a b0)
      | some op =>
        (readImm (immBytes (widthBit b0)) c).andThen fun imm c => .ok (accImmForm op (widthBit b0) imm) c
    | .f8 =>
      match jumpForm b0 with
      | none => .fail (.unrecognizedOpcode a b0)
      | some form => c.fetchByte.andThen fun disp8 c => .ok (form disp8) c

/-- The decoder on a whole byte sequence, its first byte at offset 0. -/
def decode (bs : List Byte) : Read Instr := decodeAt ⟨0, bs⟩

/-! ### The encoder (30_encoding.md R102, R108, R110, R111) -/

/-- R108: the ModRM byte. -/
def modRmByte (mod : BitVec 2) (reg rm : BitVec 3) : Byte := mod ++ reg ++ rm

/-- R79: a word's two bytes, low byte first. -/
def wordBytes (v : Word) : List Byte := [lowByte v, highByte v]

/-- R110: the displacement or address bytes of an addressing case. -/
def encodeDisp (m : RmField) : List Byte :=
  match m with
  | .base _ => []
  | .direct address => wordBytes address
  | .disp8 _ d8 => [d8]
  | .disp16 _ d16 => wordBytes d16
  | .register _ => []

/-- The ModRM byte and its displacement. -/
def encodeRm (reg : BitVec 3) (m : RmField) : List Byte := modRmByte (modeOf m) reg (rmOf m) :: encodeDisp m

/-- R111: the immediate bytes. -/
def encodeImm (imm : ImmField) : List Byte :=
  match imm with
  | .imm8 b => [b]
  | .imm16 v => wordBytes v

/-- Family 5's bytes, `00ooo0dw mod reg rm [disp]` (R220). -/
def encodeRmReg (op : ArithOp) (d w : BitVec 1) (reg : BitVec 3) (m : RmField) : List Byte :=
  (0b00#2 ++ arithSelector op ++ 0b0#1 ++ d ++ w) :: encodeRm reg m

/-- Family 6's bytes, `100000sw mod ooo rm [disp] imm` (R224). -/
def encodeRmImm (op : ArithOp) (s w : BitVec 1) (m : RmField) (imm : ImmField) : List Byte :=
  (0b100000#6 ++ s ++ w) :: (encodeRm (arithSelector op) m ++ encodeImm imm)

/-- Family 7's bytes, `00ooo10w imm` (R228). -/
def encodeAccImm (op : ArithOp) (w : BitVec 1) (imm : ImmField) : List Byte :=
  (0b00#2 ++ arithSelector op ++ 0b10#2 ++ w) :: encodeImm imm

/-- The bytes of a well-formed instruction, written from the formats of R102 and the byte values of R241. -/
def encode (i : Instr) : List Byte :=
  match i with
  | .movRmReg d w reg m => (0b100010#6 ++ d ++ w) :: encodeRm reg m
  | .movRmImm w reg m imm => (0b1100011#7 ++ w) :: (encodeRm reg m ++ encodeImm imm)
  | .movRegImm w reg imm => (0b1011#4 ++ w ++ reg) :: encodeImm imm
  | .movAccMem w address => (0b1010000#7 ++ w) :: wordBytes address
  | .movMemAcc w address => (0b1010001#7 ++ w) :: wordBytes address
  | .addRmReg d w reg m => encodeRmReg .add d w reg m
  | .subRmReg d w reg m => encodeRmReg .sub d w reg m
  | .cmpRmReg d w reg m => encodeRmReg .cmp d w reg m
  | .addRmImm s w m imm => encodeRmImm .add s w m imm
  | .subRmImm s w m imm => encodeRmImm .sub s w m imm
  | .cmpRmImm s w m imm => encodeRmImm .cmp s w m imm
  | .addAccImm w imm => encodeAccImm .add w imm
  | .subAccImm w imm => encodeAccImm .sub w imm
  | .cmpAccImm w imm => encodeAccImm .cmp w imm
  | .jo disp8 => [0x70, disp8]
  | .jno disp8 => [0x71, disp8]
  | .jb disp8 => [0x72, disp8]
  | .jnb disp8 => [0x73, disp8]
  | .je disp8 => [0x74, disp8]
  | .jne disp8 => [0x75, disp8]
  | .jbe disp8 => [0x76, disp8]
  | .ja disp8 => [0x77, disp8]
  | .js disp8 => [0x78, disp8]
  | .jns disp8 => [0x79, disp8]
  | .jp disp8 => [0x7A, disp8]
  | .jnp disp8 => [0x7B, disp8]
  | .jl disp8 => [0x7C, disp8]
  | .jnl disp8 => [0x7D, disp8]
  | .jle disp8 => [0x7E, disp8]
  | .jg disp8 => [0x7F, disp8]
  | .loopnz disp8 => [0xE0, disp8]
  | .loopz disp8 => [0xE1, disp8]
  | .loop disp8 => [0xE2, disp8]
  | .jcxz disp8 => [0xE3, disp8]

/-! ### Lengths (R112) -/

/-- Length of families 1 and 5: `2 + D`. -/
def rmRegLength (m : RmField) : Nat := 2 + rmBytes m

/-- Length of family 2: `3 + D + w`. -/
def movRmImmLength (w : BitVec 1) (m : RmField) : Nat := 3 + rmBytes m + w.toNat

/-- Length of family 6: `3 + D`, or `4 + D` when `(s, w) = (0, 1)`. -/
def arithRmImmLength (s w : BitVec 1) (m : RmField) : Nat :=
  if s = 0 ∧ w = 1 then 4 + rmBytes m else 3 + rmBytes m

/-- Length of families 3 and 7: `2 + w`. -/
def shortImmLength (w : BitVec 1) : Nat := 2 + w.toNat

/-- Length of family 4. -/
def accMemLength : Nat := 3

/-- Length of family 8. -/
def jumpLength : Nat := 2

/-- R112's table. -/
def instrLength (i : Instr) : Nat :=
  match i with
  | .movRmReg _ _ _ m => rmRegLength m
  | .movRmImm w _ m _ => movRmImmLength w m
  | .movRegImm w _ _ => shortImmLength w
  | .movAccMem _ _ => accMemLength
  | .movMemAcc _ _ => accMemLength
  | .addRmReg _ _ _ m => rmRegLength m
  | .subRmReg _ _ _ m => rmRegLength m
  | .cmpRmReg _ _ _ m => rmRegLength m
  | .addRmImm s w m _ => arithRmImmLength s w m
  | .subRmImm s w m _ => arithRmImmLength s w m
  | .cmpRmImm s w m _ => arithRmImmLength s w m
  | .addAccImm w _ => shortImmLength w
  | .subAccImm w _ => shortImmLength w
  | .cmpAccImm w _ => shortImmLength w
  | .je _ => jumpLength
  | .jl _ => jumpLength
  | .jle _ => jumpLength
  | .jb _ => jumpLength
  | .jbe _ => jumpLength
  | .jp _ => jumpLength
  | .jo _ => jumpLength
  | .js _ => jumpLength
  | .jne _ => jumpLength
  | .jnl _ => jumpLength
  | .jg _ => jumpLength
  | .jnb _ => jumpLength
  | .ja _ => jumpLength
  | .jnp _ => jumpLength
  | .jno _ => jumpLength
  | .jns _ => jumpLength
  | .loop _ => jumpLength
  | .loopz _ => jumpLength
  | .loopnz _ => jumpLength
  | .jcxz _ => jumpLength

/-! ### The words of spec/opcode_table.json -/

/-- Byte `k` of a number, byte 0 its least significant. -/
def byteOfNat (w k : Nat) : Byte := BitVec.ofNat 8 (w / 256 ^ k)

/-- The bytes, first byte first, of an instruction whose bits the opcode table numbers as `w`, filled up with zero bytes
to the longest instruction (6 bytes, R112). The table's two-byte rows (family 6) number the opcode byte `b0` as bits
15:8 ("match/mask over the 16-bit value b0 << 8 | b1"); every other row has one match byte, its first (log entry 8). -/
def tableBytes (nbits w : Nat) : List Byte :=
  let v := w % 2 ^ nbits
  if nbits = 16 ∧ classify (byteOfNat v 1) = .f6 then [byteOfNat v 1, byteOfNat v 0, 0, 0, 0, 0]
  else [byteOfNat v 0, byteOfNat v 1, byteOfNat v 2, byteOfNat v 3, byteOfNat v 4, byteOfNat v 5]

/-- What the decoder reads from a word of the opcode table; `none` where it fails. -/
def decodeTableWord (nbits w : Nat) : Option Instr :=
  match decode (tableBytes nbits w) with
  | .ok i _ => some i
  | .fail _ => none

end Sys2Proof
end

