-- ==== Sys2Proof/Machine/Flags.lean ====
section
/-! DEFINITION. The block has no flags and no condition codes (10_state.md R60): its only status bits are the scratch fields
of a record. Here is what each family records, and 0 where a family lacks the field (R45). -/

namespace Sys2Proof.Machine

/-- Every scratch field 0: family 8 (R240), and what the other families start from (R193). -/
def scratchNone : Scratch := { direction := 0, width := 0, signExtend := 0, mode := 0, reg := 0, rm := 0 }

/-- Families 1 and 5 (R200, R220). -/
def scratchRmReg (d w : BitVec 1) (reg : BitVec 3) (m : RmField) : Scratch :=
  { scratchNone with direction := d, width := w, mode := modeOf m, reg := reg, rm := rmOf m }

/-- Family 2 (R201). -/
def scratchRmImm (w : BitVec 1) (reg : BitVec 3) (m : RmField) : Scratch :=
  { scratchNone with width := w, mode := modeOf m, reg := reg, rm := rmOf m }

/-- Family 3 (R202). -/
def scratchShort (w : BitVec 1) (reg : BitVec 3) : Scratch := { scratchNone with width := w, reg := reg }

/-- Families 4 and 7 (R203, R204, R228): the width bit only. -/
def scratchAcc (w : BitVec 1) : Scratch := { scratchNone with width := w }

/-- Family 6 (R224), its `reg` field the operation selector. -/
def scratchSigned (s w : BitVec 1) (op : ArithOp) (m : RmField) : Scratch :=
  { scratchNone with width := w, signExtend := s, mode := modeOf m, reg := arithSelector op, rm := rmOf m }

end Sys2Proof.Machine
end

