-- ==== Sys2Proof/Machine/Operands.lean ====
section
/-! DEFINITION. The operands of a record: the Addressing-Mode Resolver (41_addressing.md), register, accumulator, direct
address and immediate operands (42_classifier.md section 3). -/

namespace Sys2Proof.Machine

/-- R39: a register operand. -/
def registerOperand (w : BitVec 1) (f : BitVec 3) : OperandKind := .register (registerFor w f)

/-- The accumulator of families 4 and 7: `register_for(w, 000)` (R203, R228). -/
def accumulator (w : BitVec 1) : OperandKind := registerOperand w 0b000

/-- R36, R193: `DirectMem(A)`. -/
def directMem (address : Word) : OperandKind :=
  .memory { base := .unknown, displacement := 0, directAddress := address, hasDisplacement := false,
            hasDirectAddress := true }

/-- R161: a based operand without displacement. -/
def basedMem (rm : BitVec 3) : OperandKind :=
  .memory { base := effectiveAddressRegister rm, displacement := 0, directAddress := 0, hasDisplacement := false,
            hasDirectAddress := false }

/-- R163, R164: a based operand with a displacement. -/
def displacedMem (rm : BitVec 3) (displacement : Word) : OperandKind :=
  .memory { base := effectiveAddressRegister rm, displacement := displacement, directAddress := 0,
            hasDisplacement := true, hasDirectAddress := false }

/-- R161 to R165: the operand of an addressing case; the width bit matters to the register case alone (R170). -/
def rmOperand (w : BitVec 1) (m : RmField) : OperandKind :=
  match m with
  | .base rm => basedMem rm
  | .direct address => directMem address
  | .disp8 rm d8 => displacedMem rm (sext16 d8)
  | .disp16 rm d16 => displacedMem rm d16
  | .register rm => registerOperand w rm

/-- R160, R167: `ResolveRM(mod, rm, w)`, the operand and the cursor after the bytes it needs. -/
def resolveRm (mod : BitVec 2) (rm : BitVec 3) (w : BitVec 1) (c : Cursor) : Read OperandKind :=
  (readRm mod rm c).andThen fun m c => .ok (rmOperand w m) c

/-- R187, R189: an immediate operand, its raw value and the number of bytes it took. -/
def immOperand (imm : ImmField) : OperandKind :=
  match imm with
  | .imm8 b => .immediate { value := zext16 b, width := .byte }
  | .imm16 v => .immediate { value := v, width := .word }

/-- R240, R242: a jump's displacement, kept verbatim. -/
def jumpOperand (disp8 : Byte) : OperandKind := immOperand (.imm8 disp8)

/-- R186: with `d = 0` the register-or-memory operand is the destination, with `d = 1` the register. -/
def orderByDirection (d : BitVec 1) (rm reg : OperandKind) : OperandKind × OperandKind :=
  if d = 0 then (rm, reg) else (reg, rm)

end Sys2Proof.Machine
end

