-- ==== Sys2Proof/Machine/Ops.lean ====
section
/-! DEFINITION. The named operations over the block's state: reading the buffer, loading it, committing a decode
(46_decode_loop.md R272, R273), ending the session on an error (60_exceptions.md R305), which is the block's whole trap
entry, and beginning a session (70_reset_and_hazards.md R330), which is the only way on (R309). -/

namespace Sys2Proof.Machine

/-! ### The buffer (R70, R77, R78) -/

/-- What an offset reads as that no cell lists. Below `LEN` the host loaded every byte, so this is only how a loaded
zero is written down (log entry 1); at or above `LEN` nothing is ever read. -/
def unlistedByte : Byte := 0

/-- The byte held for an offset. -/
def Memory.read (m : Memory) (a : Nat) : Byte :=
  match m with
  | [] => unlistedByte
  | (k, b) :: m => if k = a then b else Memory.read m a

/-- The canonical form: offsets strictly rising, and no cell that says what an unlisted offset reads as. -/
abbrev Memory.wf (m : Memory) : Prop :=
  m.Pairwise (fun x y => x.1 < y.1) ∧ ∀ c ∈ m, c.2 ≠ unlistedByte

/-- Put a byte at an offset. The block itself never does (R77): it is how a host's load is written. -/
def Memory.write (m : Memory) (a : Nat) (b : Byte) : Memory :=
  match m with
  | [] => if b = unlistedByte then [] else [(a, b)]
  | (k, x) :: m =>
    if k < a then (k, x) :: Memory.write m a b
    else if k = a then (if b = unlistedByte then m else (a, b) :: m)
    else if b = unlistedByte then (k, x) :: m
    else (a, b) :: (k, x) :: m

/-- Put a sequence of bytes at consecutive offsets. -/
def Memory.writeAll (m : Memory) (a : Nat) (bs : List Byte) : Memory :=
  match bs with
  | [] => m
  | b :: bs => Memory.writeAll (Memory.write m a b) (a + 1) bs

/-- The buffer a host loads: the bytes at offsets 0, 1, … (R70). -/
def Memory.load (bs : List Byte) : Memory := Memory.writeAll [] 0 bs

/-- R18: `MemRead(a, n)`, `BUF[a .. a+n-1]`, first byte first. Every use stays below `LEN`. -/
def memRead (m : Memory) (a n : Nat) : List Byte :=
  match n with
  | 0 => []
  | n + 1 => Memory.read m a :: memRead m (a + 1) n

/-- The byte at an offset of the buffer; an offset at or beyond `LEN` does not exist (R70, R78). -/
def State.byteAt (s : State) (a : Nat) : Option Byte :=
  if a < s.len then some (s.buf.read a) else none

/-- R59, R180: the working cursor a decode starts with, at `CUR` over the bytes that remain. -/
def State.cursor (s : State) : Cursor := ⟨s.cur, memRead s.buf s.cur (s.len - s.cur)⟩

/-- R57: the "bytes consumed" of the session so far. -/
def State.bytesConsumed (s : State) : Nat := s.cur - s.start

/-- Where a session stands at an offset between decodes (R272, R273, R330): scanning on while bytes remain, done and
exhausted at the end. -/
def settleAt (p : Nat) (s : State) : State :=
  { s with
    cur := p
    st := if p = s.len then .done else s.st
    reason := if p = s.len then .exhausted else s.reason }

/-- R272, R273: a successful decode is committed, its record appended and the cursor moved to `p`. -/
def commit (r : Instruction) (p : Nat) (s : State) : State := settleAt p { s with out := s.out ++ [r] }

/-! ### Errors and reset -/

/-- The `REASON` an error is reported as (R305). -/
def reasonOf (f : Fault) : Reason :=
  match f with
  | .outOfData _ _ => .outOfData
  | .unrecognizedOpcode _ _ => .unrecognizedOpcode

/-- R305: the error ends the decode and the session; `CUR` and `OUT` keep their values and nothing else is saved
(the error's information is not kept, R300, R302). -/
def takeError (f : Fault) (s : State) : State := { s with st := .done, reason := reasonOf f }

/-- R330: `Reset(BUF, LEN, START)` over the buffer the block holds. It discards the old session (R332); it is the block's
only way out of `Done` and resumes nothing (R309). -/
def restart (start : Nat) (s : State) : State :=
  { s with
    start := start
    cur := start
    out := []
    st := if start < s.len then .scanning else .done
    reason := if start < s.len then .none else .exhausted }

/-- R333 steps (2) and (3): the host sets the buffer and its length and gives `reset`. -/
def beginSession (bytes : List Byte) (start : Nat) (s : State) : State :=
  restart start { s with buf := Memory.load bytes, len := bytes.length }

/-- Bytes placed where the next decode reads, with a session scanning there: what `State.withFetchWord` does (log
entry 7). It stands for a host's load and is no transition of the block. -/
def placeAtCursor (bytes : List Byte) (s : State) : State :=
  { s with buf := s.buf.writeAll s.cur bytes, len := max s.len (s.cur + bytes.length), st := .scanning,
           reason := .none }

end Sys2Proof.Machine
end

