-- ==== Sys2Proof/Machine/Emit.lean ====
section
/-! DEFINITION. What every meaning does with its operands: put the record together and hand it to the Decode Loop
(42_classifier.md R190, 46_decode_loop.md R272), and the bodies the families share (R186, R220, R224, R228, R240). -/

namespace Sys2Proof.Machine

/-- R190: the record of a decode that began at `address` and read `rawBytes`. -/
def record (address : Nat) (rawBytes : List Byte) (op : OperationKind) (operands : OperandKind × OperandKind)
    (x : Scratch) : Instruction where
  address       := address
  operation     := op
  operands      := operands
  rawBytes      := rawBytes
  directionBit  := x.direction
  widthBit      := x.width
  signExtendBit := x.signExtend
  modeBits      := x.mode
  regBits       := x.reg
  rmBits        := x.rm

/-- The meaning of an instruction of `n` bytes: its record is appended and `CUR` moves past it (R272, R273), the raw bytes
being the buffer's own (R44). Where fewer than `n` bytes remain, the decode raises `OutOfData` (R301) and the session
ends (R305). -/
def emit (n : Nat) (op : OperationKind) (operands : OperandKind × OperandKind) (x : Scratch) (s : State) :
    Host.Outcome State Fault Refusal :=
  if s.cur + n ≤ s.len then
    .next (commit (record s.cur (memRead s.buf s.cur n) op operands x) (s.cur + n) s)
  else
    .next (takeError (.outOfData s.cur n) s)

/-- Families 1 and 5 (R200, R220). -/
def emitRmReg (op : OperationKind) (d w : BitVec 1) (reg : BitVec 3) (m : RmField) (s : State) :
    Host.Outcome State Fault Refusal :=
  emit (rmRegLength m) op (orderByDirection d (rmOperand w m) (registerOperand w reg)) (scratchRmReg d w reg m) s

/-- Family 6 (R224). -/
def emitRmImm (op : ArithOp) (sx w : BitVec 1) (m : RmField) (imm : ImmField) (s : State) :
    Host.Outcome State Fault Refusal :=
  emit (arithRmImmLength sx w m) (arithKind op) (rmOperand w m, immOperand imm) (scratchSigned sx w op m) s

/-- Family 7 (R228). -/
def emitAccImm (op : OperationKind) (w : BitVec 1) (imm : ImmField) (s : State) :
    Host.Outcome State Fault Refusal :=
  emit (shortImmLength w) op (accumulator w, immOperand imm) (scratchAcc w) s

/-- Family 8 (R240). -/
def emitJump (op : OperationKind) (disp8 : Byte) (s : State) : Host.Outcome State Fault Refusal :=
  emit jumpLength op (jumpOperand disp8, .none) scratchNone s

end Sys2Proof.Machine
end

