-- ==== Sys2Proof/Machine/Arith.lean ====
section
/-! DEFINITION. The meanings of the ADD, SUB and CMP forms, families 5 to 7 (44_arith.md). The block names the operation and
performs none. -/

namespace Sys2Proof.Machine

/-- R221: ADD r/m, reg and ADD reg, r/m. -/
def execAddRmReg (d w : BitVec 1) (reg : BitVec 3) (m : RmField) (s : State) : Host.Outcome State Fault Refusal :=
  emitRmReg .add d w reg m s

/-- R222: SUB r/m, reg and SUB reg, r/m. -/
def execSubRmReg (d w : BitVec 1) (reg : BitVec 3) (m : RmField) (s : State) : Host.Outcome State Fault Refusal :=
  emitRmReg .sub d w reg m s

/-- R223: CMP r/m, reg and CMP reg, r/m. -/
def execCmpRmReg (d w : BitVec 1) (reg : BitVec 3) (m : RmField) (s : State) : Host.Outcome State Fault Refusal :=
  emitRmReg .cmp d w reg m s

/-- R225: ADD r/m, imm. -/
def execAddRmImm (sx w : BitVec 1) (m : RmField) (imm : ImmField) (s : State) : Host.Outcome State Fault Refusal :=
  emitRmImm .add sx w m imm s

/-- R226: SUB r/m, imm. -/
def execSubRmImm (sx w : BitVec 1) (m : RmField) (imm : ImmField) (s : State) : Host.Outcome State Fault Refusal :=
  emitRmImm .sub sx w m imm s

/-- R227: CMP r/m, imm. -/
def execCmpRmImm (sx w : BitVec 1) (m : RmField) (imm : ImmField) (s : State) : Host.Outcome State Fault Refusal :=
  emitRmImm .cmp sx w m imm s

/-- R229: ADD acc, imm. -/
def execAddAccImm (w : BitVec 1) (imm : ImmField) (s : State) : Host.Outcome State Fault Refusal :=
  emitAccImm .add w imm s

/-- R230: SUB acc, imm. -/
def execSubAccImm (w : BitVec 1) (imm : ImmField) (s : State) : Host.Outcome State Fault Refusal :=
  emitAccImm .sub w imm s

/-- R231: CMP acc, imm. -/
def execCmpAccImm (w : BitVec 1) (imm : ImmField) (s : State) : Host.Outcome State Fault Refusal :=
  emitAccImm .cmp w imm s

end Sys2Proof.Machine
end

