-- ==== Sys2Proof/Machine/Jumps.lean ====
section
/-! DEFINITION. The meanings of the short jumps and loops, family 8 (45_jumps.md). The block transfers no control: the
displacement is recorded verbatim and the cursor moves on. -/

namespace Sys2Proof.Machine

/-- R243: je, short. -/
def execJe (disp8 : Byte) (s : State) : Host.Outcome State Fault Refusal := emitJump .je disp8 s

/-- R244: jl, short. -/
def execJl (disp8 : Byte) (s : State) : Host.Outcome State Fault Refusal := emitJump .jl disp8 s

/-- R245: jle, short. -/
def execJle (disp8 : Byte) (s : State) : Host.Outcome State Fault Refusal := emitJump .jle disp8 s

/-- R246: jb, short. -/
def execJb (disp8 : Byte) (s : State) : Host.Outcome State Fault Refusal := emitJump .jb disp8 s

/-- R247: jbe, short. -/
def execJbe (disp8 : Byte) (s : State) : Host.Outcome State Fault Refusal := emitJump .jbe disp8 s

/-- R248: jp, short. -/
def execJp (disp8 : Byte) (s : State) : Host.Outcome State Fault Refusal := emitJump .jp disp8 s

/-- R249: jo, short. -/
def execJo (disp8 : Byte) (s : State) : Host.Outcome State Fault Refusal := emitJump .jo disp8 s

/-- R250: js, short. -/
def execJs (disp8 : Byte) (s : State) : Host.Outcome State Fault Refusal := emitJump .js disp8 s

/-- R251: jne, short. -/
def execJne (disp8 : Byte) (s : State) : Host.Outcome State Fault Refusal := emitJump .jne disp8 s

/-- R252: jnl, short. -/
def execJnl (disp8 : Byte) (s : State) : Host.Outcome State Fault Refusal := emitJump .jnl disp8 s

/-- R253: jg, short. -/
def execJg (disp8 : Byte) (s : State) : Host.Outcome State Fault Refusal := emitJump .jg disp8 s

/-- R254: jnb, short. -/
def execJnb (disp8 : Byte) (s : State) : Host.Outcome State Fault Refusal := emitJump .jnb disp8 s

/-- R255: ja, short. -/
def execJa (disp8 : Byte) (s : State) : Host.Outcome State Fault Refusal := emitJump .ja disp8 s

/-- R256: jnp, short. -/
def execJnp (disp8 : Byte) (s : State) : Host.Outcome State Fault Refusal := emitJump .jnp disp8 s

/-- R257: jno, short. -/
def execJno (disp8 : Byte) (s : State) : Host.Outcome State Fault Refusal := emitJump .jno disp8 s

/-- R258: jns, short. -/
def execJns (disp8 : Byte) (s : State) : Host.Outcome State Fault Refusal := emitJump .jns disp8 s

/-- R259: loop, short. -/
def execLoop (disp8 : Byte) (s : State) : Host.Outcome State Fault Refusal := emitJump .loop disp8 s

/-- R260: loopz, short. -/
def execLoopz (disp8 : Byte) (s : State) : Host.Outcome State Fault Refusal := emitJump .loopz disp8 s

/-- R261: loopnz, short. -/
def execLoopnz (disp8 : Byte) (s : State) : Host.Outcome State Fault Refusal := emitJump .loopnz disp8 s

/-- R262: jcxz, short. -/
def execJcxz (disp8 : Byte) (s : State) : Host.Outcome State Fault Refusal := emitJump .jcxz disp8 s

end Sys2Proof.Machine
end

