-- ==== Sys2Proof/Machine/Mov.lean ====
section
/-! DEFINITION. The meanings of the MOV forms, families 1 to 4 (43_mov.md). -/

namespace Sys2Proof.Machine

/-- R200: MOV r/m, reg and MOV reg, r/m. -/
def execMovRmReg (d w : BitVec 1) (reg : BitVec 3) (m : RmField) (s : State) : Host.Outcome State Fault Refusal :=
  emitRmReg .mov d w reg m s

/-- R201: MOV r/m, imm; the `reg` field is kept, not examined. -/
def execMovRmImm (w : BitVec 1) (reg : BitVec 3) (m : RmField) (imm : ImmField) (s : State) :
    Host.Outcome State Fault Refusal :=
  emit (movRmImmLength w m) .mov (rmOperand w m, immOperand imm) (scratchRmImm w reg m) s

/-- R202: MOV reg, imm. -/
def execMovRegImm (w : BitVec 1) (reg : BitVec 3) (imm : ImmField) (s : State) : Host.Outcome State Fault Refusal :=
  emit (shortImmLength w) .mov (registerOperand w reg, immOperand imm) (scratchShort w reg) s

/-- R203: MOV acc, [addr]. -/
def execMovAccMem (w : BitVec 1) (address : Word) (s : State) : Host.Outcome State Fault Refusal :=
  emit accMemLength .mov (accumulator w, directMem address) (scratchAcc w) s

/-- R204: MOV [addr], acc. -/
def execMovMemAcc (w : BitVec 1) (address : Word) (s : State) : Host.Outcome State Fault Refusal :=
  emit accMemLength .mov (directMem address, accumulator w) (scratchAcc w) s

end Sys2Proof.Machine
end

