-- ==== Sys2Proof/Machine/Dispatch.lean ====
section
/-! DEFINITION. One arm per instruction, each one call of its meaning. -/

namespace Sys2Proof.Machine

def exec (i : Instr) (s : State) : Host.Outcome State Fault Refusal :=
  match i with
  -- families 1 to 4, MOV (43_mov.md)
  | .movRmReg d w reg m => Sys2Proof.Machine.execMovRmReg d w reg m s
  | .movRmImm w reg m imm => Sys2Proof.Machine.execMovRmImm w reg m imm s
  | .movRegImm w reg imm => Sys2Proof.Machine.execMovRegImm w reg imm s
  | .movAccMem w address => Sys2Proof.Machine.execMovAccMem w address s
  | .movMemAcc w address => Sys2Proof.Machine.execMovMemAcc w address s
  -- families 5 to 7, ADD, SUB and CMP (44_arith.md)
  | .addRmReg d w reg m => Sys2Proof.Machine.execAddRmReg d w reg m s
  | .subRmReg d w reg m => Sys2Proof.Machine.execSubRmReg d w reg m s
  | .cmpRmReg d w reg m => Sys2Proof.Machine.execCmpRmReg d w reg m s
  | .addRmImm sx w m imm => Sys2Proof.Machine.execAddRmImm sx w m imm s
  | .subRmImm sx w m imm => Sys2Proof.Machine.execSubRmImm sx w m imm s
  | .cmpRmImm sx w m imm => Sys2Proof.Machine.execCmpRmImm sx w m imm s
  | .addAccImm w imm => Sys2Proof.Machine.execAddAccImm w imm s
  | .subAccImm w imm => Sys2Proof.Machine.execSubAccImm w imm s
  | .cmpAccImm w imm => Sys2Proof.Machine.execCmpAccImm w imm s
  -- family 8, short jumps and loops (45_jumps.md)
  | .je disp8 => Sys2Proof.Machine.execJe disp8 s
  | .jl disp8 => Sys2Proof.Machine.execJl disp8 s
  | .jle disp8 => Sys2Proof.Machine.execJle disp8 s
  | .jb disp8 => Sys2Proof.Machine.execJb disp8 s
  | .jbe disp8 => Sys2Proof.Machine.execJbe disp8 s
  | .jp disp8 => Sys2Proof.Machine.execJp disp8 s
  | .jo disp8 => Sys2Proof.Machine.execJo disp8 s
  | .js disp8 => Sys2Proof.Machine.execJs disp8 s
  | .jne disp8 => Sys2Proof.Machine.execJne disp8 s
  | .jnl disp8 => Sys2Proof.Machine.execJnl disp8 s
  | .jg disp8 => Sys2Proof.Machine.execJg disp8 s
  | .jnb disp8 => Sys2Proof.Machine.execJnb disp8 s
  | .ja disp8 => Sys2Proof.Machine.execJa disp8 s
  | .jnp disp8 => Sys2Proof.Machine.execJnp disp8 s
  | .jno disp8 => Sys2Proof.Machine.execJno disp8 s
  | .jns disp8 => Sys2Proof.Machine.execJns disp8 s
  | .loop disp8 => Sys2Proof.Machine.execLoop disp8 s
  | .loopz disp8 => Sys2Proof.Machine.execLoopz disp8 s
  | .loopnz disp8 => Sys2Proof.Machine.execLoopnz disp8 s
  | .jcxz disp8 => Sys2Proof.Machine.execJcxz disp8 s

end Sys2Proof.Machine
end

