-- ==== Sys2Proof/Machine/Step.lean ====
section
/-! DEFINITION. One transition of the Decode Loop (46_decode_loop.md R281): in `Done` nothing changes; in `Scanning` one
decode runs and its result is committed, or its error ends the session. -/

namespace Sys2Proof.Machine

/-- R281's `Step`. -/
def step (s : State) : Host.Outcome State Fault Refusal :=
  match s.st with
  | .done => .next s
  | .scanning =>
    match decodeAt s.cursor with
    | .ok i _ => exec i s
    | .fail f => .next (takeError f s)

/-- The state in which the next step decodes exactly the instruction the opcode table numbers as `w`. -/
def State.withFetchWord (s : State) (nbits w : Nat) : State := placeAtCursor (tableBytes nbits w) s

end Sys2Proof.Machine
end

