-- ==== Sys2Proof/Config.lean ====
section
/-! DEFINITION. What a hardware instance of the block fixes (00_scope.md R11, R13, R15). The model itself needs none of it:
its offsets are natural numbers and its buffer has no largest length (decisions D6 and D24). The spec leaves no value
open on which a step could depend, so there is no free value here (93_implementation_defined.md, Part 1). -/

namespace Sys2Proof

/-- The open parameters a hardware instance names (R15): its buffer capacity `LEN_MAX` and the width `OFFSET_BITS` it
holds offsets in. -/
structure HardwareInstance where
  lenMax     : Nat
  offsetBits : Nat
  deriving DecidableEq, Repr

/-- R13: an instance holds offsets in `OFFSET_BITS` bits, where `2^OFFSET_BITS > LEN_MAX`. -/
abbrev HardwareInstance.wf (h : HardwareInstance) : Prop := h.lenMax < 2 ^ h.offsetBits

/-- The capacity the source names for its reference implementation, "0–300 bytes" (R11; an unaudited literal, I1): no
rule of the model reads it. -/
def referenceLenMax : Nat := 300

end Sys2Proof
end

