-- ==== Sys2Proof/Machine/Interface.lean ====
section
/-! DEFINITION. The block's abstract interface (10_state.md section 3, 70_reset_and_hazards.md section 1): what the host can
ask of it between steps, what it reads, and several blocks side by side (R311). -/

namespace Sys2Proof.Machine

/-- Where the buffer of a new session comes from. -/
inductive BufferSource where
  /-- The buffer and length the block holds, as the last session left them (R62: not changed by reset). -/
  | held
  /-- A finite, already-loaded buffer the host sets before the reset (R333). -/
  | loaded (bytes : List Byte)
  /-- The collaborator obtained no buffer (R303). -/
  | unavailable
  deriving DecidableEq, Repr

/-- The abstract transactions of R55 and R56, and the one the host must not make (R58). -/
inductive Command where
  | step
  | reset (source : BufferSource) (start : Nat)
  | writeBuffer (offset : Nat) (byte : Byte)
  deriving DecidableEq, Repr

/-- One transaction with a block that has been reset (D5: no other block is modelled). A reset is taken in any state
(R332). -/
def transact (c : Command) (s : State) : Host.Outcome State Fault Refusal :=
  match c with
  | .step => step s
  | .reset .held start => if start ≤ s.len then .next (restart start s) else .refused (.startBeyondLength start s.len)
  | .reset (.loaded bytes) start =>
    if start ≤ bytes.length then .next (beginSession bytes start s)
    else .refused (.startBeyondLength start bytes.length)
  | .reset .unavailable _ => .refused .sourceUnavailable
  | .writeBuffer offset _ => .refused (.bufferWrittenDuringSession offset)

/-- R278: the observation of a session's end. -/
def observation (s : State) : List Instruction × Nat × Reason := (s.out, s.cur, s.reason)

/-- R311: one transaction with block `k` of several, each with its own state. There is no such block: no transaction. -/
def transactAt (k : Nat) (c : Command) (blocks : List State) : Host.Outcome (List State) Fault Refusal :=
  match blocks[k]? with
  | none => .next blocks
  | some s =>
    match transact c s with
    | .next t => .next (blocks.set k t)
    | .fault f => .fault f
    | .refused r => .refused r

/-- R281: `Run(S)`, steps until `Done`, at most `fuel` of them (R277 says how many are enough). -/
def run (fuel : Nat) (s : State) : Host.Outcome State Fault Refusal :=
  match fuel with
  | 0 => .next s
  | fuel + 1 =>
    match s.st with
    | .done => .next s
    | .scanning =>
      match step s with
      | .next t => run fuel t
      | .fault f => .fault f
      | .refused r => .refused r

end Sys2Proof.Machine
end

