-- ==== Sys2Proof/Machine/Pseudocode.lean ====
section
/-! DEFINITION. The spec's own pseudocode, written down as it stands: `Fetch` (20_memory.md R75), `Fetch16` (R80), `ResolveRM`
(41_addressing.md R167), `ReadImm` (42_classifier.md R187), `DecodeOne` (R193) and `Step` (46_decode_loop.md R281), over
the state's buffer and length. No meaning uses it: it is the clear definition that `Machine.step` is to refine. -/

namespace Sys2Proof.Machine

/-- R75, R18: `Fetch(n)` at the working cursor `pos`. -/
def pseudoFetch (s : State) (n pos : Nat) : Except Fault (List Byte × Nat) :=
  if pos + n > s.len then .error (.outOfData pos n) else .ok (memRead s.buf pos n, pos + n)

/-- R75: `Fetch(1)`. -/
def pseudoFetchByte (s : State) (pos : Nat) : Except Fault (Byte × Nat) := do
  let (v, pos) ← pseudoFetch s 1 pos
  return (v.getD 0 0, pos)

/-- R80: `Fetch16()`. -/
def pseudoFetchWord (s : State) (pos : Nat) : Except Fault (Word × Nat) := do
  let (v, pos) ← pseudoFetch s 2 pos
  return (wordOf (v.getD 1 0) (v.getD 0 0), pos)

/-- R167: `ResolveRM(mod, rm, w)`. -/
def pseudoResolveRm (s : State) (mod : BitVec 2) (rm : BitVec 3) (w : BitVec 1) (pos : Nat) :
    Except Fault (OperandKind × Nat) :=
  if mod = 0b11 then
    .ok (.register (registerFor w rm), pos)
  else if mod = 0b00 ∧ rm = 0b110 then do
    let (a, pos) ← pseudoFetchWord s pos
    return (.memory ⟨.unknown, 0x0000, a, false, true⟩, pos)
  else if mod = 0b00 then
    .ok (.memory ⟨effectiveAddressRegister rm, 0x0000, 0x0000, false, false⟩, pos)
  else if mod = 0b01 then do
    let (d8, pos) ← pseudoFetchByte s pos
    return (.memory ⟨effectiveAddressRegister rm, sext16 d8, 0x0000, true, false⟩, pos)
  else do
    let (d16, pos) ← pseudoFetchWord s pos
    return (.memory ⟨effectiveAddressRegister rm, d16, 0x0000, true, false⟩, pos)

/-- R187: `ReadImm(n)`. -/
def pseudoReadImm (s : State) (n pos : Nat) : Except Fault (OperandKind × Nat) :=
  if n = 1 then do
    let (b, pos) ← pseudoFetchByte s pos
    return (.immediate ⟨zext16 b, .byte⟩, pos)
  else do
    let (v, pos) ← pseudoFetchWord s pos
    return (.immediate ⟨v, .word⟩, pos)

/-- R193: `DirectMem(A)`. -/
def pseudoDirectMem (a : Word) : OperandKind := .memory ⟨.unknown, 0x0000, a, false, true⟩

/-- R241: `JumpKind`, its table; a byte outside family 8 has no kind. -/
def jumpKind (b0 : Byte) : OperationKind :=
  match b0 with
  | 0x70 => .jo
  | 0x71 => .jno
  | 0x72 => .jb
  | 0x73 => .jnb
  | 0x74 => .je
  | 0x75 => .jne
  | 0x76 => .jbe
  | 0x77 => .ja
  | 0x78 => .js
  | 0x79 => .jns
  | 0x7A => .jp
  | 0x7B => .jnp
  | 0x7C => .jl
  | 0x7D => .jnl
  | 0x7E => .jle
  | 0x7F => .jg
  | 0xE0 => .loopnz
  | 0xE1 => .loopz
  | 0xE2 => .loop
  | 0xE3 => .jcxz
  | _ => .unknown

/-- R148 as the record names the operation; `unknown` where the selector names none. -/
def arithName (f : BitVec 3) : OperationKind :=
  match arithOp f with
  | some op => arithKind op
  | none => .unknown

/-- R193: the arms of `DecodeOne` after the opcode byte `b0` at `a`; `pos` is the offset after it. -/
def pseudoBody (s : State) (a : Nat) (b0 : Byte) (pos : Nat) :
    Except Fault (OperationKind × (OperandKind × OperandKind) × Scratch × Nat) :=
  match classify b0 with
  | .unrecognized => .error (.unrecognizedOpcode a b0)
  | .f1 => do
    let d := directionBit b0
    let w := widthBit b0
    let (b1, pos) ← pseudoFetchByte s pos
    let (md, rg, rmf) := modeRegRm b1
    let (m, pos) ← pseudoResolveRm s md rmf w pos
    let r := OperandKind.register (registerFor w rg)
    return (.mov, (if d = 0 then (m, r) else (r, m)), ⟨d, w, 0, md, rg, rmf⟩, pos)
  | .f2 => do
    let w := widthBit b0
    let (b1, pos) ← pseudoFetchByte s pos
    let (md, rg, rmf) := modeRegRm b1
    let (m, pos) ← pseudoResolveRm s md rmf w pos
    let (imm, pos) ← pseudoReadImm s (1 + w.toNat) pos
    return (.mov, (m, imm), ⟨0, w, 0, md, rg, rmf⟩, pos)
  | .f3 => do
    let w := widthBitShort b0
    let rg := regShort b0
    let (imm, pos) ← pseudoReadImm s (1 + w.toNat) pos
    return (.mov, (.register (registerFor w rg), imm), ⟨0, w, 0, 0, rg, 0⟩, pos)
  | .f4Load => do
    let w := widthBit b0
    let (address, pos) ← pseudoFetchWord s pos
    return (.mov, (.register (registerFor w 0b000), pseudoDirectMem address), ⟨0, w, 0, 0, 0, 0⟩, pos)
  | .f4Store => do
    let w := widthBit b0
    let (address, pos) ← pseudoFetchWord s pos
    return (.mov, (pseudoDirectMem address, .register (registerFor w 0b000)), ⟨0, w, 0, 0, 0, 0⟩, pos)
  | .f5 => do
    let d := directionBit b0
    let w := widthBit b0
    let (b1, pos) ← pseudoFetchByte s pos
    let (md, rg, rmf) := modeRegRm b1
    let (m, pos) ← pseudoResolveRm s md rmf w pos
    let r := OperandKind.register (registerFor w rg)
    return (arithName (opField b0), (if d = 0 then (m, r) else (r, m)), ⟨d, w, 0, md, rg, rmf⟩, pos)
  | .f6 => do
    let sx := signBit b0
    let w := widthBit b0
    let (b1, pos) ← pseudoFetchByte s pos
    let (md, rg, rmf) := modeRegRm b1
    if arithOp rg = none then
      .error (.unrecognizedOpcode a b0)
    else
      let (m, pos) ← pseudoResolveRm s md rmf w pos
      let (imm, pos) ← pseudoReadImm s (if sx = 0 ∧ w = 1 then 2 else 1) pos
      return (arithName rg, (m, imm), ⟨0, w, sx, md, rg, rmf⟩, pos)
  | .f7 => do
    let w := widthBit b0
    let (imm, pos) ← pseudoReadImm s (1 + w.toNat) pos
    return (arithName (opField b0), (.register (registerFor w 0b000), imm), ⟨0, w, 0, 0, 0, 0⟩, pos)
  | .f8 => do
    let (j, pos) ← pseudoFetchByte s pos
    return (jumpKind b0, (.immediate ⟨zext16 j, .byte⟩, .none), ⟨0, 0, 0, 0, 0, 0⟩, pos)

/-- R193: `DecodeOne(a)`. -/
def pseudoDecodeOne (s : State) (a : Nat) : Except Fault (Instruction × Nat) := do
  let (b0, pos) ← pseudoFetchByte s a
  let (op, ops, x, pos) ← pseudoBody s a b0 pos
  return (record a (memRead s.buf a (pos - a)) op ops x, pos)

/-- R281: `Step(S)`. -/
def pseudoStep (s : State) : State :=
  if s.st = .done then s
  else
    match pseudoDecodeOne s s.cur with
    | .ok (instr, p) =>
      if p = s.len then { s with out := s.out ++ [instr], cur := p, st := .done, reason := .exhausted }
      else { s with out := s.out ++ [instr], cur := p }
    | .error (.outOfData _ _) => { s with st := .done, reason := .outOfData }
    | .error (.unrecognizedOpcode _ _) => { s with st := .done, reason := .unrecognizedOpcode }

end Sys2Proof.Machine
end

