-- ==== Sys2Proof/Safety.lean ====
section
/-! DEFINITION. What a safe run of the block looks like between steps: the invariants of 10_state.md R54, the record
invariants of R31, R35 to R37, R41 and R44, the tiling of 46_decode_loop.md R279 and the distinguishable end of R280. Every
predicate is decidable. -/

namespace Sys2Proof.Machine

/-! ### Records -/

/-- R31: the sixteen names a register operand may hold. -/
def registerNames : List RegisterId :=
  [.al, .cl, .dl, .bl, .ah, .ch, .dh, .bh, .ax, .cx, .dx, .bx, .sp, .bp, .si, .di]

/-- R146: the eight bases a memory operand may hold. -/
def effectiveAddressNames : List RegisterId := [.bxSi, .bxDi, .bpSi, .bpDi, .si, .di, .bp, .bx]

/-- R35 and R36: a direct address excludes a base and a displacement, a based operand has one of the eight bases, and
unused fields are 0. -/
def MemoryOperand.wf (m : MemoryOperand) : Bool :=
  if m.hasDirectAddress then m.base == .unknown && !m.hasDisplacement && m.displacement == 0
  else effectiveAddressNames.contains m.base && m.directAddress == 0 && (m.hasDisplacement || m.displacement == 0)

/-- R37, R189: the width tag is `byte` or `word`, and a one-byte value has a zero high byte. -/
def ImmediateOperand.wf (i : ImmediateOperand) : Bool :=
  match i.width with
  | .unspecified => false
  | .byte => i.value.toNat < 256
  | .word => true

/-- R31, R35, R37 at one operand slot. -/
def OperandKind.wf (o : OperandKind) : Bool :=
  match o with
  | .none => true
  | .register r => registerNames.contains r
  | .memory m => m.wf
  | .immediate i => i.wf

/-- What every emitted record satisfies: a recognized operation (R41), well-formed operands, 2 to 6 bytes (R44). -/
def Instruction.wf (r : Instruction) : Bool :=
  r.operation != .unknown && r.operation != .ret && r.operands.1.wf && r.operands.2.wf &&
    decide (2 ≤ r.rawBytes.length) && decide (r.rawBytes.length ≤ 6)

/-- R38: the record of an immediate that a consumer must sign-extend before use. -/
def Instruction.extensionRequired (r : Instruction) : Bool :=
  match r.operands.2 with
  | .immediate i => i.width == .byte && r.widthBit == 1
  | _ => false

/-- R279: the records of `rs` follow one another from offset `p` to offset `q`. -/
def tiles (p : Nat) (rs : List Instruction) (q : Nat) : Bool :=
  match rs with
  | [] => p == q
  | r :: rs => r.address == p && tiles (p + r.rawBytes.length) rs q

/-! ### Invariants between steps -/

/-- The buffer is in canonical form and holds nothing outside `0 .. LEN-1` (R70). -/
abbrev BufferInv (s : State) : Prop := s.buf.wf ∧ ∀ c ∈ s.buf, c.1 < s.len

/-- R54: `START <= CUR <= LEN`. -/
abbrev CursorInv (s : State) : Prop := s.start ≤ s.cur ∧ s.cur ≤ s.len

/-- R54: `Scanning` implies `CUR < LEN` and `REASON = none`; `Done` implies `REASON` is not `none`; `exhausted` implies
`CUR = LEN`. -/
abbrev LoopInv (s : State) : Prop :=
  (s.st = .scanning → s.cur < s.len ∧ s.reason = .none) ∧ (s.st = .done → s.reason ≠ .none) ∧
    (s.reason = .exhausted → s.cur = s.len)

/-- R280: an early end leaves `CUR < LEN`. -/
abbrev EarlyEndInv (s : State) : Prop :=
  s.reason = .outOfData ∨ s.reason = .unrecognizedOpcode → s.cur < s.len

/-- R54: the raw bytes of `OUT` in order are `BUF[START .. CUR-1]`; R279: each record begins where the one before it
ended, the first at `START`, the last ending at `CUR`. -/
abbrev TilingInv (s : State) : Prop :=
  s.out.flatMap (fun r => r.rawBytes) = memRead s.buf s.start (s.cur - s.start) ∧ tiles s.start s.out s.cur = true

/-- Every record emitted is well formed. -/
abbrev RecordsInv (s : State) : Prop := ∀ r ∈ s.out, r.wf = true

/-- The block's invariant between steps. -/
abbrev Inv (s : State) : Prop :=
  BufferInv s ∧ CursorInv s ∧ LoopInv s ∧ EarlyEndInv s ∧ TilingInv s ∧ RecordsInv s

end Sys2Proof.Machine
end

