-- ==== Sys2Proof/Certificates/Slice0/Obligations.lean ====
section
/-! DEFINITION. The statements for the provers, each from the numbered rules of spec/. A rule that the spec marks as its own
decision (Dn), as derived or as general knowledge (Gn) is named as such where a statement rests on it. -/

open Sys2Proof
open Sys2Proof.Machine

/-! ### Words the statements share -/

/-- The state after a decode that emitted `r`: the record appended, the cursor past its bytes, the session over when no
byte remains, everything else as before (46_decode_loop.md R272, R273). -/
def Sys2Proof.Machine.afterRecord (r : Instruction) (s : State) : State :=
  { buf := s.buf
    len := s.len
    start := s.start
    cur := s.cur + r.rawBytes.length
    out := s.out ++ [r]
    st := if s.cur + r.rawBytes.length = s.len then .done else s.st
    reason := if s.cur + r.rawBytes.length = s.len then .exhausted else s.reason }

/-- The state after a session ended early: only `ST` and `REASON` differ (60_exceptions.md R305). -/
def Sys2Proof.Machine.afterError (why : Reason) (s : State) : State :=
  { buf := s.buf, len := s.len, start := s.start, cur := s.cur, out := s.out, st := .done, reason := why }

/-- The buffer holds `bs` from the cursor on, with room: `BUF[CUR .. CUR + length bs - 1] = bs`, all below `LEN`. -/
def Sys2Proof.Machine.HoldsAtCursor (s : State) (bs : List Byte) : Prop :=
  s.cur + bs.length ≤ s.len ∧ ∀ k, k < bs.length → s.byteAt (s.cur + k) = bs[k]?

/-- A cursor over the buffer of `s` at offset `p`. -/
def Sys2Proof.Machine.cursorFrom (s : State) (p : Nat) : Cursor := ⟨p, memRead s.buf p (s.len - p)⟩

/-! ### Byte cursor (20_memory.md) -/

/-- R75: a read of one or two bytes takes exactly the bytes of the buffer at the working cursor and advances by as many;
with fewer left it raises `OutOfData` and moves nothing. -/
def Obligations.FetchReadsTheBufferWithinItsLength : Prop :=
  ∀ (s : State) (p n : Nat), n = 1 ∨ n = 2 →
    (p + n > s.len → (cursorFrom s p).fetch n = .fail (.outOfData p n)) ∧
    (p + n ≤ s.len → (cursorFrom s p).fetch n = .ok (memRead s.buf p n) (cursorFrom s (p + n)))

/-- R79 and R80: of two bytes read as a word the first is bits 7:0 and the second bits 15:8, in displacements, direct
addresses and immediates alike; `B8 05 00` is `mov ax, 5`. For the ModRM direct address the order is R80's own derivation;
that two address bytes follow `A1` at all is the spec's decision D11 (log entry 14, PRESUMED), no word of R79. -/
def Obligations.WordsAreLittleEndian : Prop :=
  (∀ (p : Nat) (first second : Byte) (rest : List Byte), ∃ v : Word,
    v.extractLsb' 0 8 = first ∧ v.extractLsb' 8 8 = second ∧
    Cursor.fetchWord ⟨p, first :: second :: rest⟩ = .ok v ⟨p + 2, rest⟩ ∧
    (∀ rm, readRm 0b10 rm ⟨p, first :: second :: rest⟩ = .ok (.disp16 rm v) ⟨p + 2, rest⟩) ∧
    readRm 0b00 0b110 ⟨p, first :: second :: rest⟩ = .ok (.direct v) ⟨p + 2, rest⟩ ∧
    readImm 2 ⟨p, first :: second :: rest⟩ = .ok (.imm16 v) ⟨p + 2, rest⟩ ∧
    decodeAt ⟨p, 0xA1 :: first :: second :: rest⟩ = .ok (.movAccMem 1 v) ⟨p + 3, rest⟩) ∧
  decode [0xB8, 0x05, 0x00] = .ok (.movRegImm 1 0 (.imm16 5)) ⟨3, []⟩ ∧ registerFor 1 0 = .ax

/-- R73 and R74: `remaining()` is `LEN - pos`; `peek_byte(k)` gives the buffer's byte at `pos + k` and moves nothing, and
raises `OutOfData` past the end (the spec's decision D26; which count it carries is log entry 5's choice). -/
def Obligations.PeekReadsWithoutAdvancing : Prop :=
  ∀ (s : State) (p k : Nat), p ≤ s.len →
    (cursorFrom s p).position = p ∧ (cursorFrom s p).remaining = s.len - p ∧
    (∀ b, s.byteAt (p + k) = some b → (cursorFrom s p).peekByte k = .ok b (cursorFrom s p)) ∧
    (s.byteAt (p + k) = none → ∃ need, (cursorFrom s p).peekByte k = .fail (.outOfData p need))

/-! ### Bitfield extractor and tables (40_bitfield.md) -/

/-- R145, R146 and R148, every entry. The order of the entries the source does not fix is the spec's decision D13 and D14
(general knowledge G1, G3). -/
def Obligations.LookupTablesHoldTheirEntries : Prop :=
  ((List.range 8).map fun f => registerFor 0 (BitVec.ofNat 3 f)) = [.al, .cl, .dl, .bl, .ah, .ch, .dh, .bh] ∧
  ((List.range 8).map fun f => registerFor 1 (BitVec.ofNat 3 f)) = [.ax, .cx, .dx, .bx, .sp, .bp, .si, .di] ∧
  ((List.range 8).map fun f => effectiveAddressRegister (BitVec.ofNat 3 f)) =
    [.bxSi, .bxDi, .bpSi, .bpDi, .si, .di, .bp, .bx] ∧
  ((List.range 8).map fun f => (arithOp (BitVec.ofNat 3 f)).map arithKind) =
    [some .add, none, none, none, none, some .sub, none, some .cmp]

/-- R141 to R143: each one-bit extractor takes its bit, and family 3's register field is `b[2:0]`. The positions are
derived by the spec from its examples (R103 to R105; that `s` is bit 1 rests on G2). -/
def Obligations.FieldExtractorsTakeTheirBits : Prop :=
  ∀ b : Byte,
    (directionBit b).getLsbD 0 = b.getLsbD 1 ∧ (widthBit b).getLsbD 0 = b.getLsbD 0 ∧
    (widthBitShort b).getLsbD 0 = b.getLsbD 3 ∧ (signBit b).getLsbD 0 = b.getLsbD 1 ∧
    (regShort b).toNat = b.toNat % 8 ∧ (opField b).toNat = b.toNat / 8 % 8

/-- R108: the ModRM byte has `mod` in bits 7:6, `reg` in bits 5:3 and `rm` in bits 2:0; `0xD8` is `11, 011, 000`,
that is `reg = bx` and `rm = ax` in its word instruction. -/
def Obligations.ModRmByteHasItsThreeFields : Prop :=
  (∀ b : Byte, (modeRegRm b).1.toNat = b.toNat / 64 ∧ (modeRegRm b).2.1.toNat = b.toNat / 8 % 8 ∧
    (modeRegRm b).2.2.toNat = b.toNat % 8) ∧
  modeRegRm 0xD8 = (0b11, 0b011, 0b000) ∧ registerFor 1 0b011 = .bx ∧ registerFor 1 0b000 = .ax

/-- R110, its table. -/
def Obligations.DisplacementSizeFollowsItsTable : Prop :=
  ∀ rm : BitVec 3,
    displacementBytes 0b00 0b110 = 2 ∧ (rm ≠ 0b110 → displacementBytes 0b00 rm = 0) ∧
    displacementBytes 0b01 rm = 1 ∧ displacementBytes 0b10 rm = 2 ∧ displacementBytes 0b11 rm = 0

/-- R40: the closed set of operations has 26 values, none listed twice. -/
def Obligations.OperationKindsAreTwentySix : Prop :=
  let all : List OperationKind :=
    [.mov, .add, .sub, .cmp, .je, .jl, .jle, .jb, .jbe, .jp, .jo, .js, .jne, .jnl, .jg, .jnb, .ja, .jnp, .jno, .jns,
     .loop, .loopz, .loopnz, .jcxz, .ret, .unknown]
  all.length = 26 ∧ all.Nodup ∧ ∀ k : OperationKind, k ∈ all

/-! ### Opcode map (30_encoding.md, 42_classifier.md) -/

/-- The patterns of R102 as mask, value and family, in no order that matters. -/
def Sys2Proof.Machine.opcodePatterns : List (Byte × Byte × Family) :=
  [(0xFF, 0xE0, .f8), (0xFF, 0xE1, .f8), (0xFF, 0xE2, .f8), (0xFF, 0xE3, .f8), (0xF0, 0x70, .f8),
   (0xFE, 0x04, .f7), (0xFE, 0x2C, .f7), (0xFE, 0x3C, .f7), (0xFC, 0x80, .f6),
   (0xFC, 0x00, .f5), (0xFC, 0x28, .f5), (0xFC, 0x38, .f5), (0xFE, 0xA2, .f4Store), (0xFE, 0xA0, .f4Load),
   (0xF0, 0xB0, .f3), (0xFE, 0xC6, .f2), (0xFC, 0x88, .f1)]

/-- R118, R182, R115: at most one pattern matches an opcode byte, the dispatcher selects its family, a byte that no
pattern matches is unrecognized, and 68 of the 256 byte values are recognized. Derived by the spec from R102; the bytes
of families 7 and 8 are its decisions D10 and D12. -/
def Obligations.OpcodePatternsSelectOneFamily : Prop :=
  (∀ b0 : Byte,
    (opcodePatterns.filter fun p => b0 &&& p.1 == p.2.1).map (fun p => p.2.2) =
      if classify b0 = .unrecognized then [] else [classify b0]) ∧
  ((List.range 256).filter fun n => classify (BitVec.ofNat 8 n) != .unrecognized).length = 68

/-- R241 with R240: each of the twenty family-8 bytes decodes, with the byte after it, to its own instruction, and raises
`OutOfData` when it is the last byte. The bytes are the spec's decision D12 (general knowledge G5). -/
def Obligations.JumpBytesDecodeToTheirOperations : Prop :=
  ∀ p ∈ ([(0x70, .jo), (0x71, .jno), (0x72, .jb), (0x73, .jnb), (0x74, .je), (0x75, .jne), (0x76, .jbe), (0x77, .ja),
      (0x78, .js), (0x79, .jns), (0x7A, .jp), (0x7B, .jnp), (0x7C, .jl), (0x7D, .jnl), (0x7E, .jle), (0x7F, .jg),
      (0xE0, .loopnz), (0xE1, .loopz), (0xE2, .loop), (0xE3, .jcxz)] : List (Byte × (Byte → Instr))),
    ∀ (a : Nat) (disp8 : Byte) (rest : List Byte),
      decodeAt ⟨a, p.1 :: disp8 :: rest⟩ = .ok (p.2 disp8) ⟨a + 2, rest⟩ ∧
      decodeAt ⟨a, [p.1]⟩ = .fail (.outOfData (a + 1) 1)

/-- Words written out from the encodings of R200 to R243 and the spec's examples, at least one of every family, decode to the
instructions they stand for. The address bytes of `A1` and `A2` are the spec's decision D11, the bytes `3C` and `74` its
decisions D10 and D12 (log entry 14, PRESUMED). -/
def Obligations.DocumentedWordsDecode : Prop :=
  decode [0x89, 0xD8] = .ok (.movRmReg 0 1 3 (.register 0)) ⟨2, []⟩ ∧
  decode [0x8B, 0x1E, 0x34, 0x12] = .ok (.movRmReg 1 1 3 (.direct 0x1234)) ⟨4, []⟩ ∧
  decode [0xC7, 0x06, 0x10, 0x00, 0x39, 0x30] = .ok (.movRmImm 1 0 (.direct 0x0010) (.imm16 0x3039)) ⟨6, []⟩ ∧
  decode [0xB4, 0x12] = .ok (.movRegImm 0 4 (.imm8 0x12)) ⟨2, []⟩ ∧
  decode [0xBF, 0xFF, 0xFF] = .ok (.movRegImm 1 7 (.imm16 0xFFFF)) ⟨3, []⟩ ∧
  decode [0xA1, 0x34, 0x12] = .ok (.movAccMem 1 0x1234) ⟨3, []⟩ ∧
  decode [0xA2, 0x10, 0x00] = .ok (.movMemAcc 0 0x0010) ⟨3, []⟩ ∧
  decode [0x2A, 0x26, 0x00, 0x01] = .ok (.subRmReg 1 0 4 (.direct 0x0100)) ⟨4, []⟩ ∧
  decode [0x83, 0x06, 0x02, 0x00, 0x08] = .ok (.addRmImm 1 1 (.direct 0x0002) (.imm8 0x08)) ⟨5, []⟩ ∧
  decode [0x3C, 0x0A] = .ok (.cmpAccImm 0 (.imm8 0x0A)) ⟨2, []⟩ ∧
  decode [0x74, 0xFE] = .ok (.je 0xFE) ⟨2, []⟩

/-! ### Addressing-mode resolver and immediates (41_addressing.md, 42_classifier.md) -/

/-- R161 to R165: the operand each `mod` case gives, the bytes it reads and no other. -/
def Obligations.ResolverFollowsItsFiveCases : Prop :=
  ∀ (rm : BitVec 3) (w : BitVec 1) (p : Nat) (d8 lo hi : Byte) (rest : List Byte),
    (rm ≠ 0b110 → resolveRm 0b00 rm w ⟨p, rest⟩ =
      .ok (.memory { base := effectiveAddressRegister rm, displacement := 0x0000, directAddress := 0x0000,
                     hasDisplacement := false, hasDirectAddress := false }) ⟨p, rest⟩) ∧
    resolveRm 0b00 0b110 w ⟨p, lo :: hi :: rest⟩ =
      .ok (.memory { base := .unknown, displacement := 0x0000, directAddress := hi ++ lo,
                     hasDisplacement := false, hasDirectAddress := true }) ⟨p + 2, rest⟩ ∧
    resolveRm 0b01 rm w ⟨p, d8 :: rest⟩ =
      .ok (.memory { base := effectiveAddressRegister rm, displacement := d8.signExtend 16, directAddress := 0x0000,
                     hasDisplacement := true, hasDirectAddress := false }) ⟨p + 1, rest⟩ ∧
    resolveRm 0b10 rm w ⟨p, lo :: hi :: rest⟩ =
      .ok (.memory { base := effectiveAddressRegister rm, displacement := hi ++ lo, directAddress := 0x0000,
                     hasDisplacement := true, hasDirectAddress := false }) ⟨p + 2, rest⟩ ∧
    resolveRm 0b11 rm w ⟨p, rest⟩ = .ok (.register (registerFor w rm)) ⟨p, rest⟩

/-- R160, R168, R169: the resolver takes `D(mod, rm)` bytes and no other, and raises `OutOfData` exactly when fewer
remain. -/
def Obligations.ResolverConsumesItsDisplacement : Prop :=
  ∀ (mod : BitVec 2) (rm : BitVec 3) (w : BitVec 1) (c : Cursor),
    (displacementBytes mod rm ≤ c.remaining → ∃ o, resolveRm mod rm w c =
      .ok o ⟨c.pos + displacementBytes mod rm, c.rest.drop (displacementBytes mod rm)⟩) ∧
    (c.remaining < displacementBytes mod rm →
      resolveRm mod rm w c = .fail (.outOfData c.pos (displacementBytes mod rm)))

/-- R171: in the operand the resolver answers, an 8-bit displacement has the signed value of its byte and a 16-bit one that of
its two bytes, and a direct address the unsigned value of its two bytes; with the rule's corner values. Derived by the spec
from R162 to R164. -/
def Obligations.DisplacementsKeepTheirSignedValue : Prop :=
  ∀ (rm : BitVec 3) (w : BitVec 1) (p : Nat) (rest : List Byte),
    let disp8 (d8 : Byte) (v : Int) : Prop := ∃ m, resolveRm 0b01 rm w ⟨p, d8 :: rest⟩ = .ok (.memory m) ⟨p + 1, rest⟩ ∧
      m.hasDisplacement = true ∧ m.displacement.toInt = v
    let disp16 (lo hi : Byte) (v : Int) : Prop := ∃ m, resolveRm 0b10 rm w ⟨p, lo :: hi :: rest⟩ =
      .ok (.memory m) ⟨p + 2, rest⟩ ∧ m.hasDisplacement = true ∧ m.displacement.toInt = v
    let direct (lo hi : Byte) (v : Nat) : Prop := ∃ m, resolveRm 0b00 0b110 w ⟨p, lo :: hi :: rest⟩ =
      .ok (.memory m) ⟨p + 2, rest⟩ ∧ m.hasDirectAddress = true ∧ m.directAddress.toNat = v
    (∀ d8 : Byte, disp8 d8 d8.toInt) ∧
    (∀ lo hi : Byte, disp16 lo hi (256 * hi.toInt + lo.toNat)) ∧
    (∀ lo hi : Byte, direct lo hi (256 * hi.toNat + lo.toNat)) ∧
    disp8 0xFF (-1) ∧ disp8 0x80 (-128) ∧ disp8 0x7F 127 ∧ disp8 0x00 0 ∧
    disp16 0x00 0x80 (-32768) ∧ disp16 0xFF 0xFF (-1) ∧ direct 0x00 0x80 32768 ∧ direct 0xFF 0xFF 65535

/-- R187: a one-byte immediate is `{zext_16(b), byte}`, a two-byte one the little-endian word with tag `word`, and short
bytes raise `OutOfData`. -/
def Obligations.ImmediatesAreReadRaw : Prop :=
  ∀ (p : Nat) (b lo hi : Byte) (rest : List Byte),
    (∃ imm, readImm 1 ⟨p, b :: rest⟩ = .ok imm ⟨p + 1, rest⟩ ∧
      immOperand imm = .immediate { value := b.setWidth 16, width := .byte }) ∧
    (∃ imm, readImm 2 ⟨p, lo :: hi :: rest⟩ = .ok imm ⟨p + 2, rest⟩ ∧
      immOperand imm = .immediate { value := hi ++ lo, width := .word }) ∧
    readImm 1 ⟨p, []⟩ = .fail (.outOfData p 1) ∧ readImm 2 ⟨p, []⟩ = .fail (.outOfData p 2) ∧
    readImm 2 ⟨p, [b]⟩ = .fail (.outOfData p 2)

/-! ### What each instruction records, and all it leaves alone

Each of these says that `exec` answers a next state, which one, and so its frame: nothing but `OUT`, `CUR`, `ST` and
`REASON` differs, and every byte of the buffer reads as before. -/

/-- R200 (family 1): the operands by the direction bit, the scratch bits of `b0` and `b1`, length `2 + D`. -/
def Obligations.MovRegisterMemoryRecords : Prop :=
  ∀ (d w : BitVec 1) (reg : BitVec 3) (m : RmField) (s : State), s.cur + (2 + rmBytes m) ≤ s.len →
    exec (.movRmReg d w reg m) s = .next (afterRecord
      { address := s.cur, operation := .mov
        operands := if d = 0 then (rmOperand w m, .register (registerFor w reg))
                    else (.register (registerFor w reg), rmOperand w m)
        rawBytes := memRead s.buf s.cur (2 + rmBytes m)
        directionBit := d, widthBit := w, signExtendBit := 0, modeBits := modeOf m, regBits := reg, rmBits := rmOf m } s)

/-- R201 (family 2): any `reg` field is kept (R120, D7); length `3 + D + w`. -/
def Obligations.MovImmediateRecords : Prop :=
  ∀ (w : BitVec 1) (reg : BitVec 3) (m : RmField) (imm : ImmField) (s : State),
    s.cur + (3 + rmBytes m + w.toNat) ≤ s.len →
    exec (.movRmImm w reg m imm) s = .next (afterRecord
      { address := s.cur, operation := .mov, operands := (rmOperand w m, immOperand imm)
        rawBytes := memRead s.buf s.cur (3 + rmBytes m + w.toNat)
        directionBit := 0, widthBit := w, signExtendBit := 0, modeBits := modeOf m, regBits := reg, rmBits := rmOf m } s)

/-- R202 (family 3): the register of `rrr`, no `mod` or `rm`; length `2 + w`. -/
def Obligations.MovShortImmediateRecords : Prop :=
  ∀ (w : BitVec 1) (reg : BitVec 3) (imm : ImmField) (s : State), s.cur + (2 + w.toNat) ≤ s.len →
    exec (.movRegImm w reg imm) s = .next (afterRecord
      { address := s.cur, operation := .mov, operands := (.register (registerFor w reg), immOperand imm)
        rawBytes := memRead s.buf s.cur (2 + w.toNat)
        directionBit := 0, widthBit := w, signExtendBit := 0, modeBits := 0, regBits := reg, rmBits := 0 } s)

/-- R203 and R204 (family 4): the accumulator and a direct address, either way round; length 3 (the two address bytes are
the spec's decision D11, the scratch its decision D15). -/
def Obligations.MovAccumulatorRecords : Prop :=
  ∀ (w : BitVec 1) (address : Word) (s : State), s.cur + 3 ≤ s.len →
    let acc : OperandKind := .register (if w = 0 then .al else .ax)
    let mem : OperandKind := .memory { base := .unknown, displacement := 0, directAddress := address,
                                       hasDisplacement := false, hasDirectAddress := true }
    let r (operands : OperandKind × OperandKind) : Instruction :=
      { address := s.cur, operation := .mov, operands := operands, rawBytes := memRead s.buf s.cur 3
        directionBit := 0, widthBit := w, signExtendBit := 0, modeBits := 0, regBits := 0, rmBits := 0 }
    exec (.movAccMem w address) s = .next (afterRecord (r (acc, mem)) s) ∧
    exec (.movMemAcc w address) s = .next (afterRecord (r (mem, acc)) s)

/-- R220 to R223 (family 5): as family 1, the operation by the opcode byte. -/
def Obligations.ArithmeticRegisterMemoryRecords : Prop :=
  ∀ (d w : BitVec 1) (reg : BitVec 3) (m : RmField) (s : State), s.cur + (2 + rmBytes m) ≤ s.len →
    let r (op : OperationKind) : Instruction :=
      { address := s.cur, operation := op
        operands := if d = 0 then (rmOperand w m, .register (registerFor w reg))
                    else (.register (registerFor w reg), rmOperand w m)
        rawBytes := memRead s.buf s.cur (2 + rmBytes m)
        directionBit := d, widthBit := w, signExtendBit := 0, modeBits := modeOf m, regBits := reg, rmBits := rmOf m }
    exec (.addRmReg d w reg m) s = .next (afterRecord (r .add) s) ∧
    exec (.subRmReg d w reg m) s = .next (afterRecord (r .sub) s) ∧
    exec (.cmpRmReg d w reg m) s = .next (afterRecord (r .cmp) s)

/-- R224 to R227 (family 6): the operation's selector in `reg_bits`; length `4 + D` when `(s, w) = (0, 1)`, else
`3 + D`. -/
def Obligations.ArithmeticImmediateRecords : Prop :=
  ∀ (sx w : BitVec 1) (m : RmField) (imm : ImmField) (s : State) (n : Nat),
    n = (if sx = 0 ∧ w = 1 then 4 else 3) + rmBytes m → s.cur + n ≤ s.len →
    let r (op : OperationKind) (reg : BitVec 3) : Instruction :=
      { address := s.cur, operation := op, operands := (rmOperand w m, immOperand imm)
        rawBytes := memRead s.buf s.cur n
        directionBit := 0, widthBit := w, signExtendBit := sx, modeBits := modeOf m, regBits := reg, rmBits := rmOf m }
    exec (.addRmImm sx w m imm) s = .next (afterRecord (r .add 0b000) s) ∧
    exec (.subRmImm sx w m imm) s = .next (afterRecord (r .sub 0b101) s) ∧
    exec (.cmpRmImm sx w m imm) s = .next (afterRecord (r .cmp 0b111) s)

/-- R228 to R231 (family 7): the accumulator is the destination; length `2 + w` (the opcode bytes are the spec's decision
D10). -/
def Obligations.ArithmeticAccumulatorRecords : Prop :=
  ∀ (w : BitVec 1) (imm : ImmField) (s : State), s.cur + (2 + w.toNat) ≤ s.len →
    let r (op : OperationKind) : Instruction :=
      { address := s.cur, operation := op, operands := (.register (if w = 0 then .al else .ax), immOperand imm)
        rawBytes := memRead s.buf s.cur (2 + w.toNat)
        directionBit := 0, widthBit := w, signExtendBit := 0, modeBits := 0, regBits := 0, rmBits := 0 }
    exec (.addAccImm w imm) s = .next (afterRecord (r .add) s) ∧
    exec (.subAccImm w imm) s = .next (afterRecord (r .sub) s) ∧
    exec (.cmpAccImm w imm) s = .next (afterRecord (r .cmp) s)

/-- R186: in families 1 and 5, with `d = 0` the register-or-memory operand is the destination (`operands[0]`) and the
register the source, with `d = 1` the other way round. -/
def Obligations.DirectionBitOrdersTheOperands : Prop :=
  ∀ (d w : BitVec 1) (reg : BitVec 3) (m : RmField) (s : State), s.cur + (2 + rmBytes m) ≤ s.len →
    ∀ i ∈ [Instr.movRmReg d w reg m, .addRmReg d w reg m, .subRmReg d w reg m, .cmpRmReg d w reg m],
      ∃ t r, exec i s = .next t ∧ t.out = s.out ++ [r] ∧
        (d = 0 → r.operands = (rmOperand w m, .register (registerFor w reg))) ∧
        (d = 1 → r.operands = (.register (registerFor w reg), rmOperand w m))

/-- R240, R242 to R262 (family 8): the displacement byte verbatim as an immediate, no second operand, every scratch bit
0, length 2 (where the byte is held is the spec's decision D9). -/
def Obligations.ShortJumpRecords : Prop :=
  ∀ p ∈ ([(.je, .je), (.jl, .jl), (.jle, .jle), (.jb, .jb), (.jbe, .jbe), (.jp, .jp), (.jo, .jo), (.js, .js),
      (.jne, .jne), (.jnl, .jnl), (.jg, .jg), (.jnb, .jnb), (.ja, .ja), (.jnp, .jnp), (.jno, .jno), (.jns, .jns),
      (.loop, .loop), (.loopz, .loopz), (.loopnz, .loopnz), (.jcxz, .jcxz)] : List ((Byte → Instr) × OperationKind)),
    ∀ (disp8 : Byte) (s : State), s.cur + 2 ≤ s.len →
      exec (p.1 disp8) s = .next (afterRecord
        { address := s.cur, operation := p.2
          operands := (.immediate { value := disp8.setWidth 16, width := .byte }, .none)
          rawBytes := memRead s.buf s.cur 2
          directionBit := 0, widthBit := 0, signExtendBit := 0, modeBits := 0, regBits := 0, rmBits := 0 } s)

/-- The frame of every instruction: the buffer, `LEN` and `START` stay, every offset reads as before, earlier records stay, at
most one is added (R77). The second alternative, in which `exec` is given too few bytes and ends the session out of data, is
the model's own choice (log entry 6, DESIGN CHOICE): R301 and R305 speak of a decode, whose error a step takes before any
`exec`, so no step comes to it. -/
def Obligations.MeaningsChangeOnlyOutputAndCursor : Prop :=
  ∀ (i : Instr) (s : State), ∃ t, exec i s = .next t ∧ t.buf = s.buf ∧ t.len = s.len ∧ t.start = s.start ∧
    (∀ a, t.byteAt a = s.byteAt a) ∧
    ((s.cur + instrLength i ≤ s.len ∧ t.cur = s.cur + instrLength i ∧ ∃ r, t.out = s.out ++ [r]) ∨
      (s.len < s.cur + instrLength i ∧ t = afterError .outOfData s))

/-- R31, R35 to R37, R41, R44 and R189: the record of every well-formed instruction is well formed: its operation is
neither `unknown` nor `ret`, its operands keep their invariants, it has 2 to 6 bytes. -/
def Obligations.EmittedRecordsAreWellFormed : Prop :=
  ∀ (i : Instr) (s : State), i.wf = true → s.cur + instrLength i ≤ s.len →
    ∃ t r, exec i s = .next t ∧ t.out = s.out ++ [r] ∧ r.wf = true

/-- R38, R188: a record asks its consumer to sign-extend (`width = byte` with `width_bit = 1`) exactly in family 6 with
`s = 1` and `w = 1`. Derived by the spec; how it is recorded is its decision D28. -/
def Obligations.ExtensionIsRequiredExactlyInFamilySix : Prop :=
  ∀ (i : Instr) (s : State), i.wf = true → s.cur + instrLength i ≤ s.len →
    ∃ t r, exec i s = .next t ∧ t.out = s.out ++ [r] ∧
      (r.extensionRequired = true ↔
        ∃ m imm, i = .addRmImm 1 1 m imm ∨ i = .subRmImm 1 1 m imm ∨ i = .cmpRmImm 1 1 m imm)

/-! ### Decode and encode -/

/-- Decoding what the encoder writes gives the instruction back, whatever bytes follow, and stops right after it. -/
def Obligations.DecodeOfEncode : Prop :=
  ∀ (i : Instr) (a : Nat) (rest : List Byte), i.wf = true →
    decodeAt ⟨a, encode i ++ rest⟩ = .ok i ⟨a + (encode i).length, rest⟩

/-- Every byte sequence that decodes is the encoding of what it decodes to, followed by the bytes left over: each
encoding has one meaning and no bit of it is dropped (R119). -/
def Obligations.EncodeOfDecode : Prop :=
  ∀ (i : Instr) (c c' : Cursor), decodeAt c = .ok i c' → c.rest = encode i ++ c'.rest ∧ i.wf = true

/-- R112, R194: a decode that succeeds has read the length its family gives, 2 to 6 bytes, from the front of what
remained. Derived by the spec from R110 and R111. -/
def Obligations.DecodeConsumesItsLength : Prop :=
  ∀ (i : Instr) (c c' : Cursor), decodeAt c = .ok i c' →
    c'.pos = c.pos + instrLength i ∧ c'.rest = c.rest.drop (instrLength i) ∧ c.rest.length = instrLength i + c'.rest.length ∧
      2 ≤ instrLength i ∧ instrLength i ≤ 6

/-- R192: a decode reads no byte after the instruction's last: with any other bytes after it, it gives the same
instruction. Derived by the spec from R193. -/
def Obligations.DecodeReadsNoLaterByte : Prop :=
  ∀ (i : Instr) (a p : Nat) (bs rest other : List Byte), decodeAt ⟨a, bs ++ rest⟩ = .ok i ⟨p, rest⟩ →
    decodeAt ⟨a, bs ++ other⟩ = .ok i ⟨p, other⟩

/-- R301, R307: an instruction cut short after its opcode byte raises `OutOfData`, wherever it is cut. -/
def Obligations.CutInstructionRaisesOutOfData : Prop :=
  ∀ (i : Instr) (a k : Nat), i.wf = true → 0 < k → k < instrLength i →
    ∃ pos need, decodeAt ⟨a, (encode i).take k⟩ = .fail (.outOfData pos need)

/-! ### The Decode Loop (46_decode_loop.md) and errors (60_exceptions.md) -/

/-- R270, R281: in `Scanning`, a step is the meaning of the instruction that the bytes at `CUR` decode to. -/
def Obligations.StepRunsTheDecodedInstruction : Prop :=
  ∀ (s : State) (i : Instr) (c : Cursor), s.st = .scanning → decodeAt s.cursor = .ok i c → step s = exec i s

/-- R272, R273, R44, R47: where the buffer holds a well-formed instruction at `CUR`, one step emits one record, with the
instruction's own bytes and address, and moves past it. -/
def Obligations.StepEmitsTheInstructionAtTheCursor : Prop :=
  ∀ (s : State) (i : Instr), s.st = .scanning → i.wf = true → HoldsAtCursor s (encode i) →
    ∃ r, r.rawBytes = encode i ∧ r.address = s.cur ∧ step s = .next (afterRecord r s) ∧ exec i s = step s

/-- R43, R47: the record a step emits has the address `CUR` had when the decode began, its raw bytes are as many as the
cursor advances and are the buffer's own from there, and the next decode starts at the first byte after them. -/
def Obligations.RecordsMatchTheCursorAdvance : Prop :=
  ∀ (s t : State) (r : Instruction), step s = .next t → t.out = s.out ++ [r] →
    r.address = s.cur ∧ t.cur = s.cur + r.rawBytes.length ∧ r.rawBytes = memRead s.buf s.cur r.rawBytes.length ∧
      t.cursor.pos = s.cur + r.rawBytes.length

/-- R272: when `DecodeOne(CUR)` returns `ok(instr, p)`, the record is appended and `CUR <- p`, and with `p < LEN` the loop
stays `Scanning`. -/
def Obligations.LoopAppendsADecodedRecord : Prop :=
  ∀ (s : State) (instr : Instruction) (p : Nat), s.st = .scanning → pseudoDecodeOne s s.cur = .ok (instr, p) →
    ∃ t, step s = .next t ∧ t.out = s.out ++ [instr] ∧ t.cur = p ∧ (p < s.len → t.st = .scanning)

/-- R274: when `DecodeOne(CUR)` fails out of data, the loop is `Done` with `out_of_data` and nothing else changes. -/
def Obligations.LoopStopsOutOfData : Prop :=
  ∀ (s : State) (pos need : Nat), s.st = .scanning → pseudoDecodeOne s s.cur = .error (.outOfData pos need) →
    step s = .next (afterError .outOfData s)

/-- R275: when `DecodeOne(CUR)` fails on an unrecognized opcode, the loop is `Done` with `unrecognized_opcode` and nothing
else changes; that `CUR` stays is the spec's decision D3 (conflict C3). -/
def Obligations.LoopStopsOnUnrecognizedOpcode : Prop :=
  ∀ (s : State) (pos : Nat) (b : Byte), s.st = .scanning → pseudoDecodeOne s s.cur = .error (.unrecognizedOpcode pos b) →
    step s = .next (afterError .unrecognizedOpcode s)

/-- R281 with R193, R167, R187, R75 and R80: on every state the step is the spec's own pseudocode. The bytes of families 7
and 8 in `Classify` are the spec's decisions D10 and D12. -/
def Obligations.StepRefinesThePseudocode : Prop := ∀ s : State, step s = .next (pseudoStep s)

/-- R116, R185, R275: an opcode byte outside the map of R115 ends the session as `unrecognized_opcode`, even as the last
byte, with `CUR` on it and nothing emitted (D3). -/
def Obligations.UnrecognizedByteEndsTheSession : Prop :=
  ∀ (s : State) (b0 : Byte), s.st = .scanning → s.byteAt s.cur = some b0 →
    ¬ (b0 ≤ 0x05) → ¬ (0x28 ≤ b0 ∧ b0 ≤ 0x2D) → ¬ (0x38 ≤ b0 ∧ b0 ≤ 0x3D) → ¬ (0x70 ≤ b0 ∧ b0 ≤ 0x7F) →
    ¬ (0x80 ≤ b0 ∧ b0 ≤ 0x83) → ¬ (0x88 ≤ b0 ∧ b0 ≤ 0x8B) → ¬ (0xA0 ≤ b0 ∧ b0 ≤ 0xA3) → ¬ (0xB0 ≤ b0 ∧ b0 ≤ 0xBF) →
    ¬ (0xC6 ≤ b0 ∧ b0 ≤ 0xC7) → ¬ (0xE0 ≤ b0 ∧ b0 ≤ 0xE3) →
    step s = .next (afterError .unrecognizedOpcode s)

/-- R117, R232, R307: after a family-6 byte a `reg` field that names no operation ends the session as
`unrecognized_opcode`, whether or not displacement and immediate bytes follow; a family-6 byte with no byte after it is
`out_of_data`. The order of the checks is the spec's decision D8. -/
def Obligations.UnrecognizedSelectorEndsTheSession : Prop :=
  ∀ (s : State) (b0 : Byte), s.st = .scanning → s.byteAt s.cur = some b0 → 0x80 ≤ b0 → b0 ≤ 0x83 →
    (∀ b1 : Byte, s.byteAt (s.cur + 1) = some b1 → b1.toNat / 8 % 8 ∈ [1, 2, 3, 4, 6] →
      step s = .next (afterError .unrecognizedOpcode s)) ∧
    (s.byteAt (s.cur + 1) = none → step s = .next (afterError .outOfData s))

/-- R274, R301, R305, R306: a buffer that ends inside a well-formed instruction ends the session as `out_of_data`, with
`CUR` on its opcode byte and nothing emitted. -/
def Obligations.CutInstructionEndsTheSession : Prop :=
  ∀ (s : State) (i : Instr) (k : Nat), s.st = .scanning → i.wf = true → 0 < k → k < instrLength i →
    s.len = s.cur + k → HoldsAtCursor s ((encode i).take k) → step s = .next (afterError .outOfData s)

/-- R271: in `Done` a step leaves every state element as it is (the spec's decision D22). -/
def Obligations.DoneIsAbsorbing : Prop := ∀ s : State, s.st = .done → step s = .next s

/-- R304: a step always answers a state; the block never stops in a fault and nothing is refused. Derived by the spec. -/
def Obligations.EveryStepAnswersAState : Prop := ∀ s : State, ∃ t, step s = .next t

/-- R46, R48, R50, R53, R72, R77: over a step the buffer, `LEN` and `START` stay, `OUT` is kept and grows by at most one
record, `CUR` never goes back and never passes `LEN`. -/
def Obligations.StepKeepsBufferAndExtendsOutput : Prop :=
  ∀ s t : State, step s = .next t →
    t.buf = s.buf ∧ t.len = s.len ∧ t.start = s.start ∧ (∀ a, t.byteAt a = s.byteAt a) ∧
      (t.out = s.out ∨ ∃ r, t.out = s.out ++ [r]) ∧ s.cur ≤ t.cur ∧ (s.cur ≤ s.len → t.cur ≤ s.len) ∧
      (s.st = .scanning → s.cur < s.len → s.cur + 2 ≤ t.cur ∨ t.st = .done)

/-- R281, R85, R113: what a step does depends on `CUR` and on the bytes from `CUR` to the end alone: not on the records
emitted before, not on `START`, not on the bytes before `CUR`. -/
def Obligations.StepDependsOnTheRemainingBytesAlone : Prop :=
  ∀ s1 s2 : State, s1.st = .scanning → s2.st = .scanning → s1.reason = s2.reason → s1.cur = s2.cur → s1.len = s2.len →
    (∀ a, s1.cur ≤ a → s1.byteAt a = s2.byteAt a) →
    ∃ t1 t2 new, step s1 = .next t1 ∧ step s2 = .next t2 ∧ t1.cur = t2.cur ∧ t1.st = t2.st ∧ t1.reason = t2.reason ∧
      t1.out = s1.out ++ new ∧ t2.out = s2.out ++ new

/-! ### Sessions, invariants and ends (70_reset_and_hazards.md, 10_state.md R54) -/

/-- R330 to R332, R62, R70: a reset, from any state. Over a loaded buffer the block then holds those bytes and nothing more;
over the held buffer (R62) `BUF` and `LEN` stay. Either way it answers, `CUR = START`, `OUT` is empty, the loop scans exactly
when a byte remains, and the old session leaves no trace: two states that differ in it alone answer the same. The reset
operation is the spec's decision D5. -/
def Obligations.SessionBeginsAsReset : Prop :=
  (∀ (bytes : List Byte) (start : Nat) (s s' : State), start ≤ bytes.length →
    ∃ t, transact (.reset (.loaded bytes) start) s = .next t ∧ transact (.reset (.loaded bytes) start) s' = .next t ∧
      (∀ a, t.byteAt a = bytes[a]?) ∧ t.len = bytes.length ∧ t.start = start ∧ t.cur = start ∧ t.out = [] ∧
      (start < bytes.length → t.st = .scanning ∧ t.reason = .none) ∧
      (start = bytes.length → t.st = .done ∧ t.reason = .exhausted)) ∧
  (∀ (start : Nat) (s s' : State), s'.buf = s.buf → s'.len = s.len → start ≤ s.len →
    ∃ t, transact (.reset .held start) s = .next t ∧ transact (.reset .held start) s' = .next t ∧
      t.buf = s.buf ∧ (∀ a, t.byteAt a = s.byteAt a) ∧ t.len = s.len ∧ t.start = start ∧ t.cur = start ∧ t.out = [] ∧
      (start < s.len → t.st = .scanning ∧ t.reason = .none) ∧
      (start = s.len → t.st = .done ∧ t.reason = .exhausted))

/-- R58, R89, R330, R303: a host write during a session, a start beyond the length and a session without a buffer are
refused, each under its name. The refusal of the write is the spec's decision D20; that a start beyond the length is
refused is log entry 4's choice. -/
def Obligations.HostMisuseIsRefused : Prop :=
  ∀ (s : State) (a start : Nat) (b : Byte) (bytes : List Byte),
    transact (.writeBuffer a b) s = .refused (.bufferWrittenDuringSession a) ∧
    transact (.reset .unavailable start) s = .refused .sourceUnavailable ∧
    (bytes.length < start → transact (.reset (.loaded bytes) start) s = .refused (.startBeyondLength start bytes.length)) ∧
    (s.len < start → transact (.reset .held start) s = .refused (.startBeyondLength start s.len))

/-- The invariant holds after reset (R54, R62). -/
def Obligations.ResetStateMeetsTheInvariant : Prop := Inv State.reset

/-- R54, R330: every session begins in the invariant, from any state of the block for a loaded buffer and from any state
in the invariant for the buffer it holds; that both resets answer is SessionBeginsAsReset. -/
def Obligations.EveryResetEstablishesTheInvariant : Prop :=
  ∀ (s t : State) (start : Nat),
    (∀ bytes, transact (.reset (.loaded bytes) start) s = .next t → Inv t) ∧
    (BufferInv s → transact (.reset .held start) s = .next t → Inv t)

/-- R54, R279, R280 with R31, R35 to R37, R41, R44: every step keeps the invariant, from every state that meets it. -/
def Obligations.StepKeepsTheInvariant : Prop := ∀ s t : State, Inv s → step s = .next t → Inv t

/-- R277: from any state of a session, `floor((LEN - CUR) / 2) + 1` steps reach `Done`, emitting at most
`floor((LEN - CUR) / 2)` records more. Derived by the spec from R272 to R275. -/
def Obligations.EveryRunEnds : Prop :=
  ∀ s : State, CursorInv s → ∃ t, run ((s.len - s.cur) / 2 + 1) s = .next t ∧ t.st = .done ∧
    t.out.length ≤ s.out.length + (s.len - s.cur) / 2

/-- R280, R279: whatever bytes a session decodes, when it is `Done` it was fully decoded (`CUR = LEN`) exactly when
`REASON = exhausted`, it ended early exactly when `CUR < LEN`, and its records tile the bytes from `START` to `CUR`.
Derived by the spec from R272 to R275. -/
def Obligations.EndOfARunIsDistinguishable : Prop :=
  ∀ (bytes : List Byte) (start n : Nat) (s t u : State), transact (.reset (.loaded bytes) start) s = .next t →
    run n t = .next u → u.st = .done →
      (u.reason = .exhausted ↔ u.cur = bytes.length) ∧
      ((u.reason = .outOfData ∨ u.reason = .unrecognizedOpcode) ↔ u.cur < bytes.length) ∧
      u.out.flatMap (fun r => r.rawBytes) = (bytes.drop start).take (u.cur - start) ∧ tiles start u.out u.cur = true

/-- R13: on an instance that holds offsets in `OFFSET_BITS` bits with `2^OFFSET_BITS > LEN_MAX`, no offset of a session
within its capacity ever wraps (the widths are the spec's decision D24). -/
def Obligations.OffsetsFitTheInstance : Prop :=
  ∀ (h : HardwareInstance) (s t : State), h.wf → Inv s → s.len ≤ h.lenMax → step s = .next t →
    t.len < 2 ^ h.offsetBits ∧ t.start < 2 ^ h.offsetBits ∧ t.cur < 2 ^ h.offsetBits ∧
      ∀ r ∈ t.out, r.address < 2 ^ h.offsetBits

/-- Of several blocks, a transaction with one leaves every other as it is: no shared mutable state (R90), none observes another
(R311). That the blocks are a list of states which take one transaction at a time, and that two blocks' transactions give the
same states in either order, is the model's inference from those rules (log entry 22, DEDUCED). -/
def Obligations.InstancesAreIndependent : Prop :=
  ∀ (blocks after : List State) (j k : Nat) (c c' : Command), j ≠ k → transactAt j c blocks = .next after →
    after[k]? = blocks[k]? ∧ after.length = blocks.length ∧
    ∀ both, transactAt k c' after = .next both →
      ∃ mid, transactAt k c' blocks = .next mid ∧ transactAt j c mid = .next both

/-- What the host asks of the opcode table's words: where the decoder reads an instruction from a word of the table, the
next step of the state with that word placed runs exactly it, from any state whose buffer is in canonical form. The
placing is the model's own (log entries 7 and 8). -/
def Obligations.TableWordRunsNext : Prop :=
  ∀ (s : State) (nbits w : Nat) (i : Instr), s.buf.wf → decodeTableWord nbits w = some i →
    ∃ r, step (s.withFetchWord nbits w) = .next (afterRecord r (s.withFetchWord nbits w)) ∧ r.rawBytes = encode i ∧
      r.address = s.cur ∧ step (s.withFetchWord nbits w) = exec i (s.withFetchWord nbits w)
end

