-- ==== Sys2Proof/Laws/Cursor.lean ====
section
/-! SUPPORT. What a bounded read answers (20_memory.md R74, R75, R80), said once, and the inversion of a chain of reads. -/

namespace Sys2Proof.Machine

@[simp] theorem Read.ok_andThen {α β : Type} (v : α) (c : Cursor) (k : α → Cursor → Read β) :
    (Read.ok v c).andThen k = k v c := rfl

@[simp] theorem Read.fail_andThen {α β : Type} (f : Fault) (k : α → Cursor → Read β) :
    (Read.fail f : Read α).andThen k = .fail f := rfl

/-- A chain of two reads succeeds exactly when both do, the second from where the first stopped. -/
theorem Read.andThen_eq_ok {α β : Type} {r : Read α} {k : α → Cursor → Read β} {v : β} {c : Cursor} :
    r.andThen k = .ok v c ↔ ∃ v' c', r = .ok v' c' ∧ k v' c' = .ok v c := by
  cases r <;> simp [Read.andThen]

@[simp] theorem fetchByte_cons (p : Nat) (b : Byte) (bs : List Byte) :
    Cursor.fetchByte ⟨p, b :: bs⟩ = .ok b ⟨p + 1, bs⟩ := by
  simp [Cursor.fetchByte, Cursor.fetch, Cursor.remaining]

@[simp] theorem fetchByte_nil (p : Nat) : Cursor.fetchByte ⟨p, []⟩ = .fail (.outOfData p 1) := by
  simp [Cursor.fetchByte, Cursor.fetch, Cursor.remaining]

@[simp] theorem fetchWord_cons (p : Nat) (lo hi : Byte) (bs : List Byte) :
    Cursor.fetchWord ⟨p, lo :: hi :: bs⟩ = .ok (wordOf hi lo) ⟨p + 2, bs⟩ := by
  simp [Cursor.fetchWord, Cursor.fetch, Cursor.remaining]

@[simp] theorem fetchWord_single (p : Nat) (lo : Byte) :
    Cursor.fetchWord ⟨p, [lo]⟩ = .fail (.outOfData p 2) := by
  simp [Cursor.fetchWord, Cursor.fetch, Cursor.remaining]

@[simp] theorem fetchWord_nil (p : Nat) : Cursor.fetchWord ⟨p, []⟩ = .fail (.outOfData p 2) := by
  simp [Cursor.fetchWord, Cursor.fetch, Cursor.remaining]

/-- A one-byte read that succeeds has taken the first byte that remained. -/
theorem fetchByte_eq_ok {c c' : Cursor} {b : Byte} :
    c.fetchByte = .ok b c' ↔ c.rest = b :: c'.rest ∧ c'.pos = c.pos + 1 := by
  obtain ⟨p, bs⟩ := c
  obtain ⟨p', bs'⟩ := c'
  cases bs with
  | nil => simp
  | cons x bs => simp; constructor <;> (rintro ⟨h1, h2, h3⟩; simp_all)

theorem lowByte_wordOf (hi lo : Byte) : lowByte (wordOf hi lo) = lo := by
  apply BitVec.eq_of_getLsbD_eq; intro i hi'
  simp only [lowByte, wordOf, BitVec.getLsbD_extractLsb', BitVec.getLsbD_append]
  simp [hi']

theorem highByte_wordOf (hi lo : Byte) : highByte (wordOf hi lo) = hi := by
  apply BitVec.eq_of_getLsbD_eq; intro i hi'
  simp only [highByte, wordOf, BitVec.getLsbD_extractLsb', BitVec.getLsbD_append]
  simp [hi']

theorem wordOf_bytes (v : Word) : wordOf (highByte v) (lowByte v) = v := by
  apply BitVec.eq_of_getLsbD_eq
  intro i hi
  simp only [wordOf, BitVec.getLsbD_append, lowByte, highByte, BitVec.getLsbD_extractLsb']
  by_cases h : i < 8
  · simp [h]
  · simp [h, show i - 8 < 8 by omega, show 8 + (i - 8) = i by omega]

/-- A word read that succeeds has taken the first two bytes that remained, the first of them the low one (R80). -/
theorem fetchWord_eq_ok {c c' : Cursor} {v : Word} :
    c.fetchWord = .ok v c' ↔ c.rest = lowByte v :: highByte v :: c'.rest ∧ c'.pos = c.pos + 2 := by
  obtain ⟨p, bs⟩ := c
  obtain ⟨p', bs'⟩ := c'
  match bs with
  | [] => simp
  | [x] => simp
  | lo :: hi :: bs =>
    simp only [fetchWord_cons, Read.ok.injEq, Cursor.mk.injEq, List.cons.injEq]
    constructor
    · rintro ⟨rfl, rfl, rfl⟩; simp [lowByte_wordOf, highByte_wordOf]
    · rintro ⟨⟨rfl, rfl, rfl⟩, rfl⟩; simp [wordOf_bytes]

end Sys2Proof.Machine
end

