-- ==== Sys2Proof/Laws/Decode.lean ====
section
/-! SUPPORT. The decoder's shared reads, said once in each direction: what a read that succeeds has taken, and what it gives on
the bytes the encoder writes. -/

namespace Sys2Proof

open Machine

/-! ### The ModRM byte -/

theorem modeRegRm_modRmByte (mod : BitVec 2) (reg rm : BitVec 3) : modeRegRm (modRmByte mod reg rm) = (mod, reg, rm) := by
  revert mod reg rm; decide

theorem modRmByte_modeRegRm (b : Byte) : modRmByte (modeRegRm b).1 (modeRegRm b).2.1 (modeRegRm b).2.2 = b := by
  revert b; decide

@[simp] theorem arithOp_arithSelector (op : ArithOp) : arithOp (arithSelector op) = some op := by cases op <;> decide

/-! ### Reads of encoded bytes -/

theorem readRm_encodeDisp {m : RmField} (p : Nat) (rest : List Byte) (h : m.wf = true) :
    readRm (modeOf m) (rmOf m) ⟨p, encodeDisp m ++ rest⟩ = .ok m ⟨p + (encodeDisp m).length, rest⟩ := by
  cases m with
  | base rm =>
    have : rm ≠ 6#3 := by simpa [RmField.wf] using h
    simp [readRm, modeOf, rmOf, encodeDisp, this]
  | _ => simp [readRm, modeOf, rmOf, encodeDisp, wordBytes, wordOf_bytes]

theorem readImm_encodeImm {imm : ImmField} {n : Nat} (p : Nat) (rest : List Byte) (h : imm.sized n = true) :
    readImm n ⟨p, encodeImm imm ++ rest⟩ = .ok imm ⟨p + (encodeImm imm).length, rest⟩ := by
  cases imm <;> simp_all [readImm, encodeImm, ImmField.sized, wordBytes, wordOf_bytes]

theorem readModRm_encodeRm {m : RmField} (reg : BitVec 3) (p : Nat) (rest : List Byte) (h : m.wf = true) :
    readModRm ⟨p, encodeRm reg m ++ rest⟩ = .ok (reg, m) ⟨p + (encodeRm reg m).length, rest⟩ := by
  simp [readModRm, encodeRm, modeRegRm_modRmByte, readRm_encodeDisp _ _ h]; omega

/-! ### What a read that succeeds has taken -/

theorem readRm_eq_ok {mod : BitVec 2} {rm : BitVec 3} {c c' : Cursor} {m : RmField} (h : readRm mod rm c = .ok m c') :
    m.wf = true ∧ modeOf m = mod ∧ rmOf m = rm ∧ c.rest = encodeDisp m ++ c'.rest ∧
      c'.pos = c.pos + (encodeDisp m).length := by
  unfold readRm at h
  split at h
  · injection h with h1 h2; subst h1; subst h2; simp_all [RmField.wf, modeOf, rmOf, encodeDisp]
  · split at h
    · obtain ⟨v, c1, h1, h2⟩ := Read.andThen_eq_ok.mp h
      injection h2 with h2 h3; subst h2; subst h3
      have := fetchWord_eq_ok.mp h1
      simp_all [RmField.wf, modeOf, rmOf, encodeDisp, wordBytes]
    · split at h
      · injection h with h1 h2; subst h1; subst h2; simp_all [RmField.wf, modeOf, rmOf, encodeDisp]
      · split at h
        · obtain ⟨v, c1, h1, h2⟩ := Read.andThen_eq_ok.mp h
          injection h2 with h2 h3; subst h2; subst h3
          have := fetchByte_eq_ok.mp h1
          simp_all [RmField.wf, modeOf, rmOf, encodeDisp]
        · obtain ⟨v, c1, h1, h2⟩ := Read.andThen_eq_ok.mp h
          injection h2 with h2 h3; subst h2; subst h3
          have := fetchWord_eq_ok.mp h1
          have : mod = 2 :=
            (by decide : ∀ m : BitVec 2, m ≠ 3 → m ≠ 0 → m ≠ 1 → m = 2) mod (by assumption) (by assumption) (by assumption)
          simp_all [RmField.wf, modeOf, rmOf, encodeDisp, wordBytes]

theorem readImm_eq_ok {n : Nat} {c c' : Cursor} {imm : ImmField} (hn : n = 1 ∨ n = 2) (h : readImm n c = .ok imm c') :
    imm.sized n = true ∧ c.rest = encodeImm imm ++ c'.rest ∧ c'.pos = c.pos + (encodeImm imm).length := by
  unfold readImm at h
  split at h
  · obtain ⟨v, c1, h1, h2⟩ := Read.andThen_eq_ok.mp h
    injection h2 with h2 h3; subst h2; subst h3
    have := fetchByte_eq_ok.mp h1
    simp_all [ImmField.sized, encodeImm]
  · obtain ⟨v, c1, h1, h2⟩ := Read.andThen_eq_ok.mp h
    injection h2 with h2 h3; subst h2; subst h3
    have := fetchWord_eq_ok.mp h1
    simp_all [ImmField.sized, encodeImm, wordBytes]

theorem readModRm_eq_ok {c c' : Cursor} {x : BitVec 3 × RmField} (h : readModRm c = .ok x c') :
    x.2.wf = true ∧ c.rest = encodeRm x.1 x.2 ++ c'.rest := by
  obtain ⟨b1, c1, h1, h2⟩ := Read.andThen_eq_ok.mp h
  obtain ⟨m, c2, h3, h4⟩ := Read.andThen_eq_ok.mp h2
  injection h4 with h4 h5; subst h4; subst h5
  have h1 := fetchByte_eq_ok.mp h1
  obtain ⟨a1, a2, a3, a4, a5⟩ := readRm_eq_ok h3
  refine ⟨a1, ?_⟩
  simp [encodeRm, a2, a3, h1.1, a4]
  exact (modRmByte_modeRegRm b1).symm

theorem immBytes_cases (w : BitVec 1) : immBytes w = 1 ∨ immBytes w = 2 := by revert w; decide

theorem immBytesSigned_cases (s w : BitVec 1) : immBytesSigned s w = 1 ∨ immBytesSigned s w = 2 := by revert s w; decide

end Sys2Proof
end

