-- ==== Sys2Proof/Laws/State.lean ====
section
/-! SUPPORT. One lemma per field per update of the state, each true by `rfl`. -/

namespace Sys2Proof.Machine

/-! ### `settleAt` -/

@[simp] theorem settleAt_buf (p : Nat) (s : State) : (settleAt p s).buf = s.buf := rfl
@[simp] theorem settleAt_len (p : Nat) (s : State) : (settleAt p s).len = s.len := rfl
@[simp] theorem settleAt_start (p : Nat) (s : State) : (settleAt p s).start = s.start := rfl
@[simp] theorem settleAt_cur (p : Nat) (s : State) : (settleAt p s).cur = p := rfl
@[simp] theorem settleAt_out (p : Nat) (s : State) : (settleAt p s).out = s.out := rfl
@[simp] theorem settleAt_st (p : Nat) (s : State) : (settleAt p s).st = if p = s.len then .done else s.st := rfl
@[simp] theorem settleAt_reason (p : Nat) (s : State) : (settleAt p s).reason = if p = s.len then .exhausted else s.reason := rfl

/-! ### `commit` -/

@[simp] theorem commit_buf (r : Instruction) (p : Nat) (s : State) : (commit r p s).buf = s.buf := rfl
@[simp] theorem commit_len (r : Instruction) (p : Nat) (s : State) : (commit r p s).len = s.len := rfl
@[simp] theorem commit_start (r : Instruction) (p : Nat) (s : State) : (commit r p s).start = s.start := rfl
@[simp] theorem commit_cur (r : Instruction) (p : Nat) (s : State) : (commit r p s).cur = p := rfl
@[simp] theorem commit_out (r : Instruction) (p : Nat) (s : State) : (commit r p s).out = s.out ++ [r] := rfl
@[simp] theorem commit_st (r : Instruction) (p : Nat) (s : State) : (commit r p s).st = if p = s.len then .done else s.st := rfl
@[simp] theorem commit_reason (r : Instruction) (p : Nat) (s : State) : (commit r p s).reason = if p = s.len then .exhausted else s.reason := rfl

/-! ### `takeError` -/

@[simp] theorem takeError_buf (f : Fault) (s : State) : (takeError f s).buf = s.buf := rfl
@[simp] theorem takeError_len (f : Fault) (s : State) : (takeError f s).len = s.len := rfl
@[simp] theorem takeError_start (f : Fault) (s : State) : (takeError f s).start = s.start := rfl
@[simp] theorem takeError_cur (f : Fault) (s : State) : (takeError f s).cur = s.cur := rfl
@[simp] theorem takeError_out (f : Fault) (s : State) : (takeError f s).out = s.out := rfl
@[simp] theorem takeError_st (f : Fault) (s : State) : (takeError f s).st = .done := rfl
@[simp] theorem takeError_reason (f : Fault) (s : State) : (takeError f s).reason = reasonOf f := rfl

/-! ### `restart` -/

@[simp] theorem restart_buf (p : Nat) (s : State) : (restart p s).buf = s.buf := rfl
@[simp] theorem restart_len (p : Nat) (s : State) : (restart p s).len = s.len := rfl
@[simp] theorem restart_start (p : Nat) (s : State) : (restart p s).start = p := rfl
@[simp] theorem restart_cur (p : Nat) (s : State) : (restart p s).cur = p := rfl
@[simp] theorem restart_out (p : Nat) (s : State) : (restart p s).out = [] := rfl
@[simp] theorem restart_st (p : Nat) (s : State) : (restart p s).st = if p < s.len then .scanning else .done := rfl
@[simp] theorem restart_reason (p : Nat) (s : State) : (restart p s).reason = if p < s.len then .none else .exhausted := rfl

/-! ### `beginSession` -/

@[simp] theorem beginSession_buf (bs : List Byte) (p : Nat) (s : State) : (beginSession bs p s).buf = Memory.load bs := rfl
@[simp] theorem beginSession_len (bs : List Byte) (p : Nat) (s : State) : (beginSession bs p s).len = bs.length := rfl
@[simp] theorem beginSession_start (bs : List Byte) (p : Nat) (s : State) : (beginSession bs p s).start = p := rfl
@[simp] theorem beginSession_cur (bs : List Byte) (p : Nat) (s : State) : (beginSession bs p s).cur = p := rfl
@[simp] theorem beginSession_out (bs : List Byte) (p : Nat) (s : State) : (beginSession bs p s).out = [] := rfl
@[simp] theorem beginSession_st (bs : List Byte) (p : Nat) (s : State) : (beginSession bs p s).st = if p < bs.length then .scanning else .done := rfl
@[simp] theorem beginSession_reason (bs : List Byte) (p : Nat) (s : State) : (beginSession bs p s).reason = if p < bs.length then .none else .exhausted := rfl

/-! ### `placeAtCursor` -/

@[simp] theorem placeAtCursor_buf (bs : List Byte) (s : State) : (placeAtCursor bs s).buf = s.buf.writeAll s.cur bs := rfl
@[simp] theorem placeAtCursor_len (bs : List Byte) (s : State) : (placeAtCursor bs s).len = max s.len (s.cur + bs.length) := rfl
@[simp] theorem placeAtCursor_start (bs : List Byte) (s : State) : (placeAtCursor bs s).start = s.start := rfl
@[simp] theorem placeAtCursor_cur (bs : List Byte) (s : State) : (placeAtCursor bs s).cur = s.cur := rfl
@[simp] theorem placeAtCursor_out (bs : List Byte) (s : State) : (placeAtCursor bs s).out = s.out := rfl
@[simp] theorem placeAtCursor_st (bs : List Byte) (s : State) : (placeAtCursor bs s).st = .scanning := rfl
@[simp] theorem placeAtCursor_reason (bs : List Byte) (s : State) : (placeAtCursor bs s).reason = .none := rfl

end Sys2Proof.Machine
end

