-- ==== Sys2Proof/Laws/Emit.lean ====
section
/-! SUPPORT. What the shared operations of the meanings can do, said once: a meaning either commits one record or ends the
session, and answers nothing else. -/

namespace Sys2Proof.Machine

/-- Where the bytes are there, the record is appended and the cursor moves past them. -/
theorem emit_fits {n : Nat} {op : OperationKind} {ops : OperandKind × OperandKind} {x : Scratch} {s : State}
    (h : s.cur + n ≤ s.len) :
    emit n op ops x s = .next (commit (record s.cur (memRead s.buf s.cur n) op ops x) (s.cur + n) s) := by
  simp [emit, h]

/-- Where they are not, the session ends out of data. -/
theorem emit_short {n : Nat} {op : OperationKind} {ops : OperandKind × OperandKind} {x : Scratch} {s : State}
    (h : s.len < s.cur + n) : emit n op ops x s = .next (takeError (.outOfData s.cur n) s) := by
  simp [emit, Nat.not_le.mpr h]

/-- Every meaning is one `emit` over the instruction's length. -/
theorem exec_emits (i : Instr) :
    ∃ op ops x, ∀ s : State, exec i s = emit (instrLength i) op ops x s := by
  cases i <;> exact ⟨_, _, _, fun _ => rfl⟩

/-- A meaning never faults and never refuses. -/
theorem exec_cases (i : Instr) (s : State) :
    (s.cur + instrLength i ≤ s.len ∧ ∃ r : Instruction, r.address = s.cur ∧
      r.rawBytes = memRead s.buf s.cur (instrLength i) ∧ exec i s = .next (commit r (s.cur + instrLength i) s)) ∨
    (s.len < s.cur + instrLength i ∧ exec i s = .next (takeError (.outOfData s.cur (instrLength i)) s)) := by
  obtain ⟨op, ops, x, h⟩ := exec_emits i
  rcases Nat.lt_or_ge s.len (s.cur + instrLength i) with hs | hs
  · exact .inr ⟨hs, (h s).trans (emit_short hs)⟩
  · exact .inl ⟨hs, _, rfl, rfl, (h s).trans (emit_fits hs)⟩

end Sys2Proof.Machine
end

