-- ==== Sys2Proof/Laws/Memory.lean ====
section
/-! SUPPORT. The laws of the buffer: a read after a write, the canonical form, and what a load holds. -/

namespace Sys2Proof.Machine

theorem Memory.read_write_same (m : Memory) (a : Nat) (b : Byte) (h : m.Pairwise (fun x y => x.1 < y.1)) :
    (m.write a b).read a = b := by
  induction m with
  | nil => unfold Memory.write; split <;> simp_all [Memory.read]
  | cons c m ih =>
    obtain ⟨k, x⟩ := c
    have hm := (List.pairwise_cons.mp h).2
    have hlt := (List.pairwise_cons.mp h).1
    have above : ∀ (n : Memory) (a : Nat), (∀ c ∈ n, a < c.1) → n.read a = unlistedByte := by
      intro n a hn
      induction n with
      | nil => rfl
      | cons c n ihn =>
        obtain ⟨j, y⟩ := c
        have hj := hn (j, y) (by simp)
        have : ¬ j = a := by simp at hj; omega
        simp only [Memory.read, this, if_false]
        exact ihn fun c hc => hn c (by simp [hc])
    simp only [Memory.write]
    split
    · have : ¬ k = a := by omega
      simp [Memory.read, this, ih hm]
    · split
      · split
        · rename_i e hb
          subst e; subst hb
          exact above m k hlt
        · simp [Memory.read]
      · split
        · rename_i hb
          subst hb
          refine above ((k, x) :: m) a ?_
          intro c hc
          rcases List.mem_cons.mp hc with rfl | hc
          · simp; omega
          · have := hlt c hc; simp at this; omega
        · simp [Memory.read]

theorem Memory.read_write_other (m : Memory) (a x : Nat) (b : Byte) (h : x ≠ a) : (m.write a b).read x = m.read x := by
  induction m with
  | nil =>
    unfold Memory.write
    split
    · rfl
    · simp [Memory.read, Ne.symm h]
  | cons c m ih =>
    obtain ⟨k, y⟩ := c
    simp only [Memory.write]
    split
    · simp only [Memory.read, ih]
    · split
      · rename_i e
        subst e
        split <;> simp [Memory.read, Ne.symm h]
      · split <;> simp [Memory.read, Ne.symm h]

/-- A write keeps the offsets above a bound. -/
theorem Memory.write_mem {m : Memory} {a : Nat} {b : Byte} {c : Host.Cell} (h : c ∈ m.write a b) :
    c ∈ m ∨ (c = (a, b) ∧ b ≠ unlistedByte) := by
  induction m with
  | nil =>
    unfold Memory.write at h
    split at h
    · simp at h
    · right; simp_all
  | cons d m ih =>
    obtain ⟨k, x⟩ := d
    simp only [Memory.write] at h
    split at h
    · rcases List.mem_cons.mp h with rfl | h
      · simp
      · rcases ih h with h | h
        · simp [h]
        · exact .inr h
    · split at h
      · split at h
        · simp [h]
        · rcases List.mem_cons.mp h with rfl | h
          · right; simp_all
          · simp [h]
      · split at h
        · exact .inl h
        · rcases List.mem_cons.mp h with rfl | h
          · right; simp_all
          · exact .inl h

theorem Memory.write_sorted {m : Memory} (a : Nat) (b : Byte) (h : m.Pairwise (fun x y => x.1 < y.1)) :
    (m.write a b).Pairwise (fun x y => x.1 < y.1) := by
  induction m with
  | nil => unfold Memory.write; split <;> simp
  | cons c m ih =>
    obtain ⟨k, x⟩ := c
    have hm := (List.pairwise_cons.mp h).2
    have hlt := (List.pairwise_cons.mp h).1
    simp only [Memory.write]
    split
    · refine List.pairwise_cons.mpr ⟨?_, ih hm⟩
      intro c hc
      rcases Memory.write_mem hc with hc | ⟨rfl, -⟩
      · exact hlt c hc
      · assumption
    · split
      · rename_i e
        subst e
        split
        · exact hm
        · exact List.pairwise_cons.mpr ⟨hlt, hm⟩
      · split
        · exact h
        · refine List.pairwise_cons.mpr ⟨?_, h⟩
          intro c hc
          rcases List.mem_cons.mp hc with rfl | hc
          · simp; omega
          · have := hlt c hc; simp at this ⊢; omega

/-- Every write keeps the canonical form. -/
theorem Memory.write_wf {m : Memory} (a : Nat) (b : Byte) (h : m.wf) : (m.write a b).wf := by
  refine ⟨Memory.write_sorted a b h.1, ?_⟩
  intro c hc
  rcases Memory.write_mem hc with hc | ⟨rfl, hb⟩
  · exact h.2 c hc
  · exact hb

theorem Memory.writeAll_wf (bs : List Byte) {m : Memory} (a : Nat) (h : m.wf) : (m.writeAll a bs).wf := by
  induction bs generalizing m a with
  | nil => exact h
  | cons b bs ih => exact ih (a + 1) (Memory.write_wf a b h)

theorem Memory.nil_wf : Memory.wf [] := ⟨List.Pairwise.nil, by simp⟩

/-- A loaded buffer is in canonical form. -/
theorem Memory.load_wf (bs : List Byte) : (Memory.load bs).wf := Memory.writeAll_wf bs 0 Memory.nil_wf

theorem Memory.writeAll_mem {bs : List Byte} {m : Memory} {a : Nat} {c : Host.Cell} (h : c ∈ m.writeAll a bs) :
    c ∈ m ∨ c.1 < a + bs.length := by
  induction bs generalizing m a with
  | nil => exact .inl h
  | cons b bs ih =>
    rcases ih h with h | h
    · rcases Memory.write_mem h with h | ⟨rfl, -⟩
      · exact .inl h
      · simp
    · right; simp; omega

/-- A loaded buffer holds nothing at or beyond its length. -/
theorem Memory.load_bounded (bs : List Byte) : ∀ c ∈ Memory.load bs, c.1 < bs.length := by
  intro c hc
  rcases Memory.writeAll_mem hc with h | h
  · simp at h
  · simpa using h

theorem Memory.read_writeAll_below (bs : List Byte) (m : Memory) (a x : Nat) (h : x < a) :
    (m.writeAll a bs).read x = m.read x := by
  induction bs generalizing m a with
  | nil => rfl
  | cons b bs ih =>
    simp only [Memory.writeAll]
    rw [ih _ _ (by omega), Memory.read_write_other _ _ _ _ (by omega)]

@[simp] theorem memRead_length (m : Memory) (a n : Nat) : (memRead m a n).length = n := by
  induction n generalizing a with
  | zero => rfl
  | succ n ih => simp [memRead, ih]

/-- What was written is what is read back. -/
theorem memRead_writeAll (bs : List Byte) (m : Memory) (a : Nat) (h : m.Pairwise (fun x y => x.1 < y.1)) :
    memRead (m.writeAll a bs) a bs.length = bs := by
  induction bs generalizing m a with
  | nil => rfl
  | cons b bs ih =>
    simp only [List.length_cons, memRead, Memory.writeAll]
    rw [ih _ _ (Memory.write_sorted a b h), Memory.read_writeAll_below _ _ _ _ (by omega), Memory.read_write_same _ _ _ h]

/-- A load is read back whole. -/
theorem memRead_load (bs : List Byte) : memRead (Memory.load bs) 0 bs.length = bs :=
  memRead_writeAll bs [] 0 List.Pairwise.nil

/-- A read splits at any point. -/
theorem memRead_add (m : Memory) (a n k : Nat) : memRead m a (n + k) = memRead m a n ++ memRead m (a + n) k := by
  induction n generalizing a with
  | zero => simp [memRead]
  | succ n ih =>
    rw [show n + 1 + k = (n + k) + 1 by omega]
    simp [memRead, ih, Nat.add_assoc, Nat.add_comm 1]

theorem memRead_getElem? (m : Memory) (a n k : Nat) :
    (memRead m a n)[k]? = if k < n then some (m.read (a + k)) else none := by
  induction n generalizing a k with
  | zero => simp [memRead]
  | succ n ih =>
    cases k with
    | zero => simp [memRead]
    | succ k => simp [memRead, ih, show a + 1 + k = a + (k + 1) by omega]

end Sys2Proof.Machine
end

