-- ==== Sys2Proof/Laws/Operands.lean ====
section
/-! SUPPORT. Every operand the operand forms build keeps the record invariants of 10_state.md (R31, R35 to R37). -/

namespace Sys2Proof.Machine

theorem registerFor_mem (w : BitVec 1) (f : BitVec 3) : registerFor w f ∈ registerNames := by
  revert w f; decide

theorem effectiveAddressRegister_mem (rm : BitVec 3) : effectiveAddressRegister rm ∈ effectiveAddressNames := by
  revert rm; decide

@[simp] theorem registerOperand_wf (w : BitVec 1) (f : BitVec 3) : (registerOperand w f).wf = true := by
  simp [registerOperand, OperandKind.wf, registerFor_mem]

@[simp] theorem rmOperand_wf (w : BitVec 1) (m : RmField) : (rmOperand w m).wf = true := by
  cases m <;> simp [rmOperand, basedMem, directMem, displacedMem, OperandKind.wf, MemoryOperand.wf,
    effectiveAddressRegister_mem, registerOperand, registerFor_mem]

@[simp] theorem immOperand_wf (imm : ImmField) : (immOperand imm).wf = true := by
  cases imm with
  | imm8 b =>
    have := b.isLt
    simp [immOperand, zext16, OperandKind.wf, ImmediateOperand.wf]
    omega
  | imm16 v => rfl

end Sys2Proof.Machine
end

