-- ==== Sys2Proof/Laws/PerInstr.lean ====
section
/-! SUPPORT. Statements about instructions as syntax, one lemma per constructor: an encoded instruction has the length that
30_encoding.md R112 gives its family. -/

namespace Sys2Proof.Laws

open Sys2Proof.Machine

/-- R112 at one instruction. -/
def EncodeLength.Statement (i : Instr) : Prop := i.wf = true → (encode i).length = instrLength i

theorem encodeRm_length {m : RmField} (reg : BitVec 3) (h : m.wf = true) : (encodeRm reg m).length = 1 + rmBytes m := by
  cases m with
  | base rm =>
    have : rm ≠ 6#3 := by simpa [RmField.wf] using h
    simp [encodeRm, encodeDisp, rmBytes, modeOf, rmOf, displacementBytes, this]
  | _ => simp [encodeRm, encodeDisp, rmBytes, modeOf, rmOf, displacementBytes, wordBytes]

theorem encodeImm_length {imm : ImmField} {n : Nat} (h : imm.sized n = true) : (encodeImm imm).length = n := by
  cases imm <;> simp_all [ImmField.sized, encodeImm, wordBytes]

theorem encodeRmReg_length {m : RmField} (op : ArithOp) (d w : BitVec 1) (reg : BitVec 3) (h : m.wf = true) :
    (encodeRmReg op d w reg m).length = rmRegLength m := by
  simp only [encodeRmReg, List.length_cons, encodeRm_length reg h, rmRegLength]; omega

theorem encodeRmImm_length {m : RmField} {imm : ImmField} {s w : BitVec 1} (op : ArithOp) (h : m.wf = true)
    (hi : imm.sized (immBytesSigned s w) = true) : (encodeRmImm op s w m imm).length = arithRmImmLength s w m := by
  simp only [encodeRmImm, List.length_cons, List.length_append, encodeRm_length _ h, encodeImm_length hi,
    immBytesSigned, arithRmImmLength]
  split <;> omega

theorem encodeAccImm_length {imm : ImmField} {w : BitVec 1} (op : ArithOp) (hi : imm.sized (immBytes w) = true) :
    (encodeAccImm op w imm).length = shortImmLength w := by
  simp only [encodeAccImm, List.length_cons, encodeImm_length hi, immBytes, shortImmLength]; omega

theorem EncodeLength.movRmReg (d w : BitVec 1) (reg : BitVec 3) (m : RmField) :
    EncodeLength.Statement (.movRmReg d w reg m) := by
  intro h
  simp only [encode, List.length_cons, encodeRm_length reg h, instrLength, rmRegLength]; omega

theorem EncodeLength.movRmImm (w : BitVec 1) (reg : BitVec 3) (m : RmField) (imm : ImmField) :
    EncodeLength.Statement (.movRmImm w reg m imm) := by
  intro h
  simp only [Instr.wf, Bool.and_eq_true] at h
  simp only [encode, List.length_cons, List.length_append, encodeRm_length reg h.1, encodeImm_length h.2, instrLength,
    movRmImmLength, immBytes]
  omega

theorem EncodeLength.movRegImm (w : BitVec 1) (reg : BitVec 3) (imm : ImmField) :
    EncodeLength.Statement (.movRegImm w reg imm) := by
  intro h
  simp only [encode, List.length_cons, encodeImm_length h, instrLength, shortImmLength, immBytes]; omega

theorem EncodeLength.movAccMem (w : BitVec 1) (address : Word) : EncodeLength.Statement (.movAccMem w address) := fun _ => rfl

theorem EncodeLength.movMemAcc (w : BitVec 1) (address : Word) : EncodeLength.Statement (.movMemAcc w address) := fun _ => rfl

theorem EncodeLength.addRmReg (d w : BitVec 1) (reg : BitVec 3) (m : RmField) :
    EncodeLength.Statement (.addRmReg d w reg m) := fun h => encodeRmReg_length .add d w reg h

theorem EncodeLength.subRmReg (d w : BitVec 1) (reg : BitVec 3) (m : RmField) :
    EncodeLength.Statement (.subRmReg d w reg m) := fun h => encodeRmReg_length .sub d w reg h

theorem EncodeLength.cmpRmReg (d w : BitVec 1) (reg : BitVec 3) (m : RmField) :
    EncodeLength.Statement (.cmpRmReg d w reg m) := fun h => encodeRmReg_length .cmp d w reg h

theorem EncodeLength.addRmImm (s w : BitVec 1) (m : RmField) (imm : ImmField) :
    EncodeLength.Statement (.addRmImm s w m imm) := fun h =>
  have h := Bool.and_eq_true_iff.mp h
  encodeRmImm_length .add h.1 h.2

theorem EncodeLength.subRmImm (s w : BitVec 1) (m : RmField) (imm : ImmField) :
    EncodeLength.Statement (.subRmImm s w m imm) := fun h =>
  have h := Bool.and_eq_true_iff.mp h
  encodeRmImm_length .sub h.1 h.2

theorem EncodeLength.cmpRmImm (s w : BitVec 1) (m : RmField) (imm : ImmField) :
    EncodeLength.Statement (.cmpRmImm s w m imm) := fun h =>
  have h := Bool.and_eq_true_iff.mp h
  encodeRmImm_length .cmp h.1 h.2

theorem EncodeLength.addAccImm (w : BitVec 1) (imm : ImmField) : EncodeLength.Statement (.addAccImm w imm) := 
  fun h => encodeAccImm_length .add h

theorem EncodeLength.subAccImm (w : BitVec 1) (imm : ImmField) : EncodeLength.Statement (.subAccImm w imm) := 
  fun h => encodeAccImm_length .sub h

theorem EncodeLength.cmpAccImm (w : BitVec 1) (imm : ImmField) : EncodeLength.Statement (.cmpAccImm w imm) := 
  fun h => encodeAccImm_length .cmp h

theorem EncodeLength.je (disp8 : Byte) : EncodeLength.Statement (.je disp8) := fun _ => rfl

theorem EncodeLength.jl (disp8 : Byte) : EncodeLength.Statement (.jl disp8) := fun _ => rfl

theorem EncodeLength.jle (disp8 : Byte) : EncodeLength.Statement (.jle disp8) := fun _ => rfl

theorem EncodeLength.jb (disp8 : Byte) : EncodeLength.Statement (.jb disp8) := fun _ => rfl

theorem EncodeLength.jbe (disp8 : Byte) : EncodeLength.Statement (.jbe disp8) := fun _ => rfl

theorem EncodeLength.jp (disp8 : Byte) : EncodeLength.Statement (.jp disp8) := fun _ => rfl

theorem EncodeLength.jo (disp8 : Byte) : EncodeLength.Statement (.jo disp8) := fun _ => rfl

theorem EncodeLength.js (disp8 : Byte) : EncodeLength.Statement (.js disp8) := fun _ => rfl

theorem EncodeLength.jne (disp8 : Byte) : EncodeLength.Statement (.jne disp8) := fun _ => rfl

theorem EncodeLength.jnl (disp8 : Byte) : EncodeLength.Statement (.jnl disp8) := fun _ => rfl

theorem EncodeLength.jg (disp8 : Byte) : EncodeLength.Statement (.jg disp8) := fun _ => rfl

theorem EncodeLength.jnb (disp8 : Byte) : EncodeLength.Statement (.jnb disp8) := fun _ => rfl

theorem EncodeLength.ja (disp8 : Byte) : EncodeLength.Statement (.ja disp8) := fun _ => rfl

theorem EncodeLength.jnp (disp8 : Byte) : EncodeLength.Statement (.jnp disp8) := fun _ => rfl

theorem EncodeLength.jno (disp8 : Byte) : EncodeLength.Statement (.jno disp8) := fun _ => rfl

theorem EncodeLength.jns (disp8 : Byte) : EncodeLength.Statement (.jns disp8) := fun _ => rfl

theorem EncodeLength.loop (disp8 : Byte) : EncodeLength.Statement (.loop disp8) := fun _ => rfl

theorem EncodeLength.loopz (disp8 : Byte) : EncodeLength.Statement (.loopz disp8) := fun _ => rfl

theorem EncodeLength.loopnz (disp8 : Byte) : EncodeLength.Statement (.loopnz disp8) := fun _ => rfl

theorem EncodeLength.jcxz (disp8 : Byte) : EncodeLength.Statement (.jcxz disp8) := fun _ => rfl

/-- R112 for every instruction. -/
theorem EncodeLength.all (i : Instr) : EncodeLength.Statement i := by
  cases i
  case movRmReg => apply EncodeLength.movRmReg
  case movRmImm => apply EncodeLength.movRmImm
  case movRegImm => apply EncodeLength.movRegImm
  case movAccMem => apply EncodeLength.movAccMem
  case movMemAcc => apply EncodeLength.movMemAcc
  case addRmReg => apply EncodeLength.addRmReg
  case subRmReg => apply EncodeLength.subRmReg
  case cmpRmReg => apply EncodeLength.cmpRmReg
  case addRmImm => apply EncodeLength.addRmImm
  case subRmImm => apply EncodeLength.subRmImm
  case cmpRmImm => apply EncodeLength.cmpRmImm
  case addAccImm => apply EncodeLength.addAccImm
  case subAccImm => apply EncodeLength.subAccImm
  case cmpAccImm => apply EncodeLength.cmpAccImm
  case je => apply EncodeLength.je
  case jl => apply EncodeLength.jl
  case jle => apply EncodeLength.jle
  case jb => apply EncodeLength.jb
  case jbe => apply EncodeLength.jbe
  case jp => apply EncodeLength.jp
  case jo => apply EncodeLength.jo
  case js => apply EncodeLength.js
  case jne => apply EncodeLength.jne
  case jnl => apply EncodeLength.jnl
  case jg => apply EncodeLength.jg
  case jnb => apply EncodeLength.jnb
  case ja => apply EncodeLength.ja
  case jnp => apply EncodeLength.jnp
  case jno => apply EncodeLength.jno
  case jns => apply EncodeLength.jns
  case loop => apply EncodeLength.loop
  case loopz => apply EncodeLength.loopz
  case loopnz => apply EncodeLength.loopnz
  case jcxz => apply EncodeLength.jcxz

end Sys2Proof.Laws
end

