-- ==== Sys2Proof/Laws/Step.lean ====
section
/-! SUPPORT. Everything a step can do, said once: nothing in `Done`; in `Scanning` the meaning of the instruction at the cursor,
or the end of the session on the decode's error. -/

namespace Sys2Proof.Machine

theorem step_done {s : State} (h : s.st = .done) : step s = .next s := by simp [step, h]

theorem step_ok {s : State} {i : Instr} {c : Cursor} (h : s.st = .scanning) (hd : decodeAt s.cursor = .ok i c) :
    step s = exec i s := by simp [step, h, hd]

theorem step_fail {s : State} {f : Fault} (h : s.st = .scanning) (hd : decodeAt s.cursor = .fail f) :
    step s = .next (takeError f s) := by simp [step, h, hd]

/-- The three ways a step answers a state. -/
theorem step_cases {s t : State} (h : step s = .next t) :
    (s.st = .done ∧ t = s) ∨
    (s.st = .scanning ∧ ∃ i c, decodeAt s.cursor = .ok i c ∧ exec i s = .next t) ∨
    (s.st = .scanning ∧ ∃ f, decodeAt s.cursor = .fail f ∧ t = takeError f s) := by
  cases hs : s.st with
  | done =>
    rw [step_done hs] at h
    injection h with h
    exact .inl ⟨rfl, h.symm⟩
  | scanning =>
    cases hd : decodeAt s.cursor with
    | ok i c => exact .inr (.inl ⟨rfl, i, c, rfl, (step_ok hs hd) ▸ h⟩)
    | fail f =>
      rw [step_fail hs hd] at h
      injection h with h
      exact .inr (.inr ⟨rfl, f, rfl, h.symm⟩)

end Sys2Proof.Machine
end

