-- ==== Sys2Proof/Tests/Slice0.lean ====
section
/-! SUPPORT. The author's own tests. Expected results are the vectors of spec/95_test_vectors.md (named V1 to V10, P1 to P7 and
L1-1 to L1-11 there), the rules named beside them, or a count done by hand. Part 4 shows for every statement with
hypotheses a state and operands that meet them. -/

namespace Sys2Proof.Tests

open Sys2Proof.Machine

/-- A session just begun over `bytes` (70_reset_and_hazards.md R330). -/
def session (bytes : List Byte) (start : Nat) : State := beginSession bytes start State.reset

/-- The next state of an outcome, if it is one. -/
def nextOf (o : Host.Outcome State Fault Refusal) : Option State :=
  match o with
  | .next t => some t
  | .fault _ => none
  | .refused _ => none

/-- What a session shows: cursor, loop state, reason, and the bytes of each record. -/
structure Seen where
  cur    : Nat
  st     : LoopState
  reason : Reason
  bytes  : List (List Byte)
  deriving DecidableEq, Repr

/-- What `n` steps of a session show. -/
def seen (n : Nat) (bytes : List Byte) (start : Nat) : Option Seen :=
  (nextOf (run n (session bytes start))).map fun t => ⟨t.cur, t.st, t.reason, t.out.map fun r => r.rawBytes⟩

/-- The records after one step. -/
def emitted (bytes : List Byte) : Option (List Instruction) :=
  (nextOf (step (session bytes 0))).map fun t => t.out

/-! ### Part 1: ill-formed terms are refused -/

/-- R166: `mod = 00, rm = 110` is the direct address, so no based operand has `rm = 110`. -/
theorem test_wf_base_110 : (Instr.movRmReg 0 1 3 (.base 0b110)).wf = false ∧
    (Instr.addRmReg 0 1 3 (.base 0b110)).wf = false ∧ (Instr.subRmReg 0 1 3 (.base 0b110)).wf = false ∧
    (Instr.cmpRmReg 0 1 3 (.base 0b110)).wf = false ∧ (Instr.movRmImm 0 0 (.base 0b110) (.imm8 5)).wf = false ∧
    (Instr.addRmImm 0 0 (.base 0b110) (.imm8 5)).wf = false ∧ (Instr.subRmImm 0 0 (.base 0b110) (.imm8 5)).wf = false ∧
    (Instr.cmpRmImm 0 0 (.base 0b110) (.imm8 5)).wf = false := by decide

/-- R188: families 2, 3 and 7 take one immediate byte with `w = 0` and two with `w = 1`. -/
theorem test_wf_imm_size : (Instr.movRmImm 0 0 (.register 0) (.imm16 5)).wf = false ∧
    (Instr.movRmImm 1 0 (.register 0) (.imm8 5)).wf = false ∧ (Instr.movRegImm 0 0 (.imm16 5)).wf = false ∧
    (Instr.movRegImm 1 0 (.imm8 5)).wf = false ∧ (Instr.addAccImm 0 (.imm16 5)).wf = false ∧
    (Instr.subAccImm 1 (.imm8 5)).wf = false ∧ (Instr.cmpAccImm 1 (.imm8 5)).wf = false := by decide

/-- R188: family 6 takes two bytes with `(s, w) = (0, 1)` and one otherwise. -/
theorem test_wf_imm_size_signed : (Instr.addRmImm 0 1 (.register 0) (.imm8 5)).wf = false ∧
    (Instr.subRmImm 1 1 (.register 0) (.imm16 5)).wf = false ∧ (Instr.cmpRmImm 0 0 (.register 0) (.imm16 5)).wf = false ∧
    (Instr.addRmImm 1 0 (.register 0) (.imm16 5)).wf = false ∧ (Instr.addRmImm 0 1 (.register 0) (.imm16 5)).wf = true ∧
    (Instr.subRmImm 1 1 (.register 0) (.imm8 5)).wf = true := by decide

/-! ### Part 2: every constructor's decoding, by a word of spec/95_test_vectors.md -/

/-- V1: `88 4A 80`. -/
theorem test_decode_mov_rm_reg : decode [0x88, 0x4A, 0x80] = .ok (.movRmReg 0 0 1 (.disp8 2 0x80)) ⟨3, []⟩ := by decide

/-- V1: `8B 1E 34 12`. -/
theorem test_decode_mov_rm_reg_direct : decode [0x8B, 0x1E, 0x34, 0x12] = .ok (.movRmReg 1 1 3 (.direct 0x1234)) ⟨4, []⟩ := by decide

/-- V2: `C7 85 00 80 FF 7F`. -/
theorem test_decode_mov_rm_imm : decode [0xC7, 0x85, 0x00, 0x80, 0xFF, 0x7F] = .ok (.movRmImm 1 0 (.disp16 5 0x8000) (.imm16 0x7FFF)) ⟨6, []⟩ := by decide

/-- V2, D7: `C6 7F 01 09`. -/
theorem test_decode_mov_rm_imm_reg_kept : decode [0xC6, 0x7F, 0x01, 0x09] = .ok (.movRmImm 0 7 (.disp8 7 0x01) (.imm8 0x09)) ⟨4, []⟩ := by decide

/-- V3: `B4 12`. -/
theorem test_decode_mov_reg_imm : decode [0xB4, 0x12] = .ok (.movRegImm 0 4 (.imm8 0x12)) ⟨2, []⟩ := by decide

/-- V4: `A0 34 12`. -/
theorem test_decode_mov_acc_mem : decode [0xA0, 0x34, 0x12] = .ok (.movAccMem 0 0x1234) ⟨3, []⟩ := by decide

/-- V4: `A3 FF FF`. -/
theorem test_decode_mov_mem_acc : decode [0xA3, 0xFF, 0xFF] = .ok (.movMemAcc 1 0xFFFF) ⟨3, []⟩ := by decide

/-- V5: `03 5E FE`. -/
theorem test_decode_add_rm_reg : decode [0x03, 0x5E, 0xFE] = .ok (.addRmReg 1 1 3 (.disp8 6 0xFE)) ⟨3, []⟩ := by decide

/-- V5: `29 D9`. -/
theorem test_decode_sub_rm_reg : decode [0x29, 0xD9] = .ok (.subRmReg 0 1 3 (.register 1)) ⟨2, []⟩ := by decide

/-- V5: `3A 41 FF`. -/
theorem test_decode_cmp_rm_reg : decode [0x3A, 0x41, 0xFF] = .ok (.cmpRmReg 1 0 0 (.disp8 1 0xFF)) ⟨3, []⟩ := by decide

/-- V6: `81 C3 34 12`. -/
theorem test_decode_add_rm_imm : decode [0x81, 0xC3, 0x34, 0x12] = .ok (.addRmImm 0 1 (.register 3) (.imm16 0x1234)) ⟨4, []⟩ := by decide

/-- V6: `81 AE 00 01 10 00`. -/
theorem test_decode_sub_rm_imm : decode [0x81, 0xAE, 0x00, 0x01, 0x10, 0x00] = .ok (.subRmImm 0 1 (.disp16 6 0x0100) (.imm16 0x0010)) ⟨6, []⟩ := by decide

/-- V6, 0x82 by D25: `82 F9 7F`. -/
theorem test_decode_cmp_rm_imm : decode [0x82, 0xF9, 0x7F] = .ok (.cmpRmImm 1 0 (.register 1) (.imm8 0x7F)) ⟨3, []⟩ := by decide

/-- V7: `05 E8 03`. -/
theorem test_decode_add_acc_imm : decode [0x05, 0xE8, 0x03] = .ok (.addAccImm 1 (.imm16 0x03E8)) ⟨3, []⟩ := by decide

/-- V7: `2C 01`. -/
theorem test_decode_sub_acc_imm : decode [0x2C, 0x01] = .ok (.subAccImm 0 (.imm8 0x01)) ⟨2, []⟩ := by decide

/-- V7: `3D FF FF`. -/
theorem test_decode_cmp_acc_imm : decode [0x3D, 0xFF, 0xFF] = .ok (.cmpAccImm 1 (.imm16 0xFFFF)) ⟨3, []⟩ := by decide

/-- V8: `74 FE`. -/
theorem test_decode_je : decode [0x74, 0xFE] = .ok (.je 0xFE) ⟨2, []⟩ := by decide

/-- V8: `7C 00`. -/
theorem test_decode_jl : decode [0x7C, 0x00] = .ok (.jl 0x00) ⟨2, []⟩ := by decide

/-- V8: `7E 7F`. -/
theorem test_decode_jle : decode [0x7E, 0x7F] = .ok (.jle 0x7F) ⟨2, []⟩ := by decide

/-- V8: `72 80`. -/
theorem test_decode_jb : decode [0x72, 0x80] = .ok (.jb 0x80) ⟨2, []⟩ := by decide

/-- V8: `76 02`. -/
theorem test_decode_jbe : decode [0x76, 0x02] = .ok (.jbe 0x02) ⟨2, []⟩ := by decide

/-- V8: `7A 10`. -/
theorem test_decode_jp : decode [0x7A, 0x10] = .ok (.jp 0x10) ⟨2, []⟩ := by decide

/-- V8: `70 FF`. -/
theorem test_decode_jo : decode [0x70, 0xFF] = .ok (.jo 0xFF) ⟨2, []⟩ := by decide

/-- V8: `78 05`. -/
theorem test_decode_js : decode [0x78, 0x05] = .ok (.js 0x05) ⟨2, []⟩ := by decide

/-- V8: `75 FC`. -/
theorem test_decode_jne : decode [0x75, 0xFC] = .ok (.jne 0xFC) ⟨2, []⟩ := by decide

/-- V8: `7D 01`. -/
theorem test_decode_jnl : decode [0x7D, 0x01] = .ok (.jnl 0x01) ⟨2, []⟩ := by decide

/-- V8: `7F 7E`. -/
theorem test_decode_jg : decode [0x7F, 0x7E] = .ok (.jg 0x7E) ⟨2, []⟩ := by decide

/-- V8: `73 81`. -/
theorem test_decode_jnb : decode [0x73, 0x81] = .ok (.jnb 0x81) ⟨2, []⟩ := by decide

/-- V8: `77 20`. -/
theorem test_decode_ja : decode [0x77, 0x20] = .ok (.ja 0x20) ⟨2, []⟩ := by decide

/-- V8: `7B 40`. -/
theorem test_decode_jnp : decode [0x7B, 0x40] = .ok (.jnp 0x40) ⟨2, []⟩ := by decide

/-- V8: `71 03`. -/
theorem test_decode_jno : decode [0x71, 0x03] = .ok (.jno 0x03) ⟨2, []⟩ := by decide

/-- V8: `79 F0`. -/
theorem test_decode_jns : decode [0x79, 0xF0] = .ok (.jns 0xF0) ⟨2, []⟩ := by decide

/-- V8: `E2 FC`. -/
theorem test_decode_loop : decode [0xE2, 0xFC] = .ok (.loop 0xFC) ⟨2, []⟩ := by decide

/-- V8: `E1 FA`. -/
theorem test_decode_loopz : decode [0xE1, 0xFA] = .ok (.loopz 0xFA) ⟨2, []⟩ := by decide

/-- V8: `E0 F8`. -/
theorem test_decode_loopnz : decode [0xE0, 0xF8] = .ok (.loopnz 0xF8) ⟨2, []⟩ := by decide

/-- V8: `E3 06`. -/
theorem test_decode_jcxz : decode [0xE3, 0x06] = .ok (.jcxz 0x06) ⟨2, []⟩ := by decide

/-- The encoder writes the words of V1, V2, V6 and V8. -/
theorem test_encode : encode (.movRmReg 0 1 3 (.register 0)) = [0x89, 0xD8] ∧
    encode (.movRmImm 1 0 (.direct 0x0010) (.imm16 0x3039)) = [0xC7, 0x06, 0x10, 0x00, 0x39, 0x30] ∧
    encode (.addRmImm 1 1 (.direct 0x0002) (.imm8 0x08)) = [0x83, 0x06, 0x02, 0x00, 0x08] ∧
    encode (.jcxz 0x06) = [0xE3, 0x06] := by decide

/-- V9: bytes outside the subset are unrecognized, whatever follows. -/
theorem test_unrecognized : decode [0xF1] = .fail (.unrecognizedOpcode 0 0xF1) ∧
    decode [0xC3] = .fail (.unrecognizedOpcode 0 0xC3) ∧
    decode [0x26, 0x8B, 0x07] = .fail (.unrecognizedOpcode 0 0x26) ∧
    decode [0x90] = .fail (.unrecognizedOpcode 0 0x90) ∧ decode [0x0F] = .fail (.unrecognizedOpcode 0 0x0F) ∧
    decode [0xEB, 0x00] = .fail (.unrecognizedOpcode 0 0xEB) := by decide

/-- V6: a family-6 selector outside the subset, with and without the bytes after it (D8). -/
theorem test_unrecognized_selector : decode [0x80, 0xC8, 0x01] = .fail (.unrecognizedOpcode 0 0x80) ∧
    decode [0x80, 0x08] = .fail (.unrecognizedOpcode 0 0x80) := by decide

/-- V1 to V8, the short ones: where the bytes run out and how many were asked for. -/
theorem test_out_of_data : decode [0x8B] = .fail (.outOfData 1 1) ∧ decode [0x8B, 0x06, 0x34] = .fail (.outOfData 2 2) ∧
    decode [0x8B, 0x86, 0x00] = .fail (.outOfData 2 2) ∧ decode [0xC7, 0xC1] = .fail (.outOfData 2 2) ∧
    decode [0xC7, 0x06, 0x10, 0x00, 0x39] = .fail (.outOfData 4 2) ∧ decode [0xB3] = .fail (.outOfData 1 1) ∧
    decode [0xA1, 0x34] = .fail (.outOfData 1 2) ∧ decode [0x38] = .fail (.outOfData 1 1) ∧
    decode [0x80] = .fail (.outOfData 1 1) ∧ decode [0x81, 0x87, 0x00] = .fail (.outOfData 2 2) ∧
    decode [0x81, 0xC0, 0x34] = .fail (.outOfData 2 2) ∧ decode [0x74] = .fail (.outOfData 1 1) := by decide

/-- The opcode table's own numbering: family 6 has its first byte in bits 15:8 (log entry 8), the others in bits 7:0. -/
theorem test_table_word : decodeTableWord 16 0x8028 = some (.subRmImm 0 0 (.base 0) (.imm8 0)) ∧
    decodeTableWord 16 0x83F9 = some (.cmpRmImm 1 1 (.register 1) (.imm8 0)) ∧
    decodeTableWord 8 0x88 = some (.movRmReg 0 0 0 (.base 0)) ∧ decodeTableWord 8 0x74 = some (.je 0) ∧
    decodeTableWord 8 0xF1 = none := by decide

/-- The same words run as the first instruction after reset. -/
theorem test_table_word_runs :
    nextOf (step (State.reset.withFetchWord 16 0x8028)) =
      nextOf (exec (.subRmImm 0 0 (.base 0) (.imm8 0)) (State.reset.withFetchWord 16 0x8028)) ∧
    nextOf (step (State.reset.withFetchWord 8 0x74)) = nextOf (exec (.je 0) (State.reset.withFetchWord 8 0x74)) ∧
    (nextOf (step (State.reset.withFetchWord 8 0x74))).isSome = true := by decide

/-! ### Part 3: steps and sessions -/

/-- L1-4: `89 D8` is `mov ax, bx`. -/
theorem test_step_mov_rm_reg : emitted [0x89, 0xD8] =
    some [record 0 [0x89, 0xD8] .mov (.register .ax, .register .bx) ⟨0, 1, 0, 0b11, 0b011, 0b000⟩] := by decide

/-- V1: `8A 2F` is `mov ch, [bx]`, the register being the destination. -/
theorem test_step_mov_direction : emitted [0x8A, 0x2F] =
    some [record 0 [0x8A, 0x2F] .mov (.register .ch, .memory ⟨.bx, 0, 0, false, false⟩) ⟨1, 0, 0, 0b00, 0b101, 0b111⟩] := by
  decide

/-- L1-8 and L1-2: `mod = 01, rm = 110` is `[bp+disp]` even with a displacement of 0, and a byte 0x80 is -128. -/
theorem test_resolver : resolveRm 0b01 0b110 1 ⟨2, [0x00]⟩ = .ok (.memory ⟨.bp, 0, 0, true, false⟩) ⟨3, []⟩ ∧
    resolveRm 0b01 0b010 0 ⟨2, [0x80]⟩ = .ok (.memory ⟨.bpSi, 0xFF80, 0, true, false⟩) ⟨3, []⟩ := by decide

/-- V2: `C7 06 10 00 39 30` is `mov word [16], 12345`, six bytes. -/
theorem test_step_mov_rm_imm : emitted [0xC7, 0x06, 0x10, 0x00, 0x39, 0x30] =
    some [record 0 [0xC7, 0x06, 0x10, 0x00, 0x39, 0x30] .mov
      (.memory ⟨.unknown, 0, 0x0010, false, true⟩, .immediate ⟨0x3039, .word⟩) ⟨0, 1, 0, 0b00, 0b000, 0b110⟩] := by decide

/-- V2: `C6 7F 01 09` keeps the `reg` field nothing examines (D7). -/
theorem test_step_mov_reg_kept : emitted [0xC6, 0x7F, 0x01, 0x09] = some [record 0 [0xC6, 0x7F, 0x01, 0x09] .mov
    (.memory ⟨.bx, 1, 0, true, false⟩, .immediate ⟨9, .byte⟩) ⟨0, 0, 0, 0b01, 0b111, 0b111⟩] := by decide

/-- L1-5: `B8 05 00` is `mov ax, 5`. -/
theorem test_step_mov_reg_imm : emitted [0xB8, 0x05, 0x00] =
    some [record 0 [0xB8, 0x05, 0x00] .mov (.register .ax, .immediate ⟨5, .word⟩) ⟨0, 1, 0, 0, 0b000, 0⟩] := by decide

/-- V3: `BF FF FF` is `mov di, 65535`; `reg_bits` is 111 and there is no ModRM. -/
theorem test_step_mov_di : emitted [0xBF, 0xFF, 0xFF] =
    some [record 0 [0xBF, 0xFF, 0xFF] .mov (.register .di, .immediate ⟨0xFFFF, .word⟩) ⟨0, 1, 0, 0, 0b111, 0⟩] := by decide

/-- V4: `A1 34 12` loads `ax`. -/
theorem test_step_mov_acc_mem : emitted [0xA1, 0x34, 0x12] = some [record 0 [0xA1, 0x34, 0x12] .mov
    (.register .ax, .memory ⟨.unknown, 0, 0x1234, false, true⟩) ⟨0, 1, 0, 0, 0, 0⟩] := by decide

/-- V4: `A2 10 00` stores `al`. -/
theorem test_step_mov_mem_acc : emitted [0xA2, 0x10, 0x00] = some [record 0 [0xA2, 0x10, 0x00] .mov
    (.memory ⟨.unknown, 0, 0x0010, false, true⟩, .register .al) ⟨0, 0, 0, 0, 0, 0⟩] := by decide

/-- V5: `01 C8` is `add ax, cx`. -/
theorem test_step_add_rm_reg : emitted [0x01, 0xC8] =
    some [record 0 [0x01, 0xC8] .add (.register .ax, .register .cx) ⟨0, 1, 0, 0b11, 0b001, 0b000⟩] := by decide

/-- V5: `2A 26 00 01` is `sub ah, [256]`. -/
theorem test_step_sub_rm_reg : emitted [0x2A, 0x26, 0x00, 0x01] = some [record 0 [0x2A, 0x26, 0x00, 0x01] .sub
    (.register .ah, .memory ⟨.unknown, 0, 0x0100, false, true⟩) ⟨1, 0, 0, 0b00, 0b100, 0b110⟩] := by decide

/-- V5: `39 F8` is `cmp ax, di`. -/
theorem test_step_cmp_rm_reg : emitted [0x39, 0xF8] =
    some [record 0 [0x39, 0xF8] .cmp (.register .ax, .register .di) ⟨0, 1, 0, 0b11, 0b111, 0b000⟩] := by decide

/-- L1-6: `83 06 02 00 08` keeps the raw byte; its record asks for extension. -/
theorem test_step_add_rm_imm : emitted [0x83, 0x06, 0x02, 0x00, 0x08] =
    some [record 0 [0x83, 0x06, 0x02, 0x00, 0x08] .add
      (.memory ⟨.unknown, 0, 0x0002, false, true⟩, .immediate ⟨0x0008, .byte⟩) ⟨0, 1, 1, 0b00, 0b000, 0b110⟩] := by decide

/-- V6: `83 E8 FF` keeps 0x00FF. -/
theorem test_step_sub_rm_imm : emitted [0x83, 0xE8, 0xFF] = some [record 0 [0x83, 0xE8, 0xFF] .sub
    (.register .ax, .immediate ⟨0x00FF, .byte⟩) ⟨0, 1, 1, 0b11, 0b101, 0b000⟩] := by decide

/-- V6: `82 F9 7F` is accepted (D25), a byte comparison with `s = 1`. -/
theorem test_step_cmp_rm_imm : emitted [0x82, 0xF9, 0x7F] = some [record 0 [0x82, 0xF9, 0x7F] .cmp
    (.register .cl, .immediate ⟨0x007F, .byte⟩) ⟨0, 0, 1, 0b11, 0b111, 0b001⟩] := by decide

/-- R38 by L1-6 and V6: extension is asked for with `s = 1, w = 1`, not with `s = 1, w = 0`. -/
theorem test_extension_required :
    (emitted [0x83, 0x06, 0x02, 0x00, 0x08]).map (fun o => o.map fun r => r.extensionRequired) = some [true] ∧
    (emitted [0x82, 0xF9, 0x7F]).map (fun o => o.map fun r => r.extensionRequired) = some [false] := by decide

/-- V7: `04 01` is `add al, 1`. -/
theorem test_step_add_acc_imm : emitted [0x04, 0x01] =
    some [record 0 [0x04, 0x01] .add (.register .al, .immediate ⟨1, .byte⟩) ⟨0, 0, 0, 0, 0, 0⟩] := by decide

/-- V7: `2D 01 00` is `sub ax, 1`. -/
theorem test_step_sub_acc_imm : emitted [0x2D, 0x01, 0x00] =
    some [record 0 [0x2D, 0x01, 0x00] .sub (.register .ax, .immediate ⟨1, .word⟩) ⟨0, 1, 0, 0, 0, 0⟩] := by decide

/-- V7: `3C 0A` is `cmp al, 10`. -/
theorem test_step_cmp_acc_imm : emitted [0x3C, 0x0A] =
    some [record 0 [0x3C, 0x0A] .cmp (.register .al, .immediate ⟨10, .byte⟩) ⟨0, 0, 0, 0, 0, 0⟩] := by decide

/-- V8: `72 80` stores 0x0080, not sign-extended, with no second operand and no scratch. -/
theorem test_step_jb : emitted [0x72, 0x80] =
    some [record 0 [0x72, 0x80] .jb (.immediate ⟨0x0080, .byte⟩, .none) ⟨0, 0, 0, 0, 0, 0⟩] := by decide

/-- V8: `E1 FA` is `loopz`. -/
theorem test_step_loopz : emitted [0xE1, 0xFA] =
    some [record 0 [0xE1, 0xFA] .loopz (.immediate ⟨0x00FA, .byte⟩, .none) ⟨0, 0, 0, 0, 0, 0⟩] := by decide

/-- V10-1 and V10-2: where a session begins. -/
theorem test_session_begin : seen 0 [] 0 = some ⟨0, .done, .exhausted, []⟩ ∧
    seen 0 [0x89, 0xD8] 0 = some ⟨0, .scanning, .none, []⟩ ∧ seen 0 [0x89, 0xD8] 2 = some ⟨2, .done, .exhausted, []⟩ := by
  decide

/-- V10-3 and V10-4: the last instruction ends the session in its own step, and a further step changes nothing. -/
theorem test_session_exhausted : seen 1 [0x89, 0xD8] 0 = some ⟨2, .done, .exhausted, [[0x89, 0xD8]]⟩ ∧
    seen 2 [0x89, 0xD8] 0 = some ⟨2, .done, .exhausted, [[0x89, 0xD8]]⟩ := by decide

/-- V10-5: the record before the unrecognized byte is kept. -/
theorem test_session_unrecognized : seen 2 [0x89, 0xD8, 0xF1] 0 = some ⟨2, .done, .unrecognizedOpcode, [[0x89, 0xD8]]⟩ := by
  decide

/-- V10-8 and L1-7. -/
theorem test_session_first_fails : seen 1 [0x74] 0 = some ⟨0, .done, .outOfData, []⟩ ∧
    seen 1 [0xF1] 0 = some ⟨0, .done, .unrecognizedOpcode, []⟩ := by decide

/-- P5: a session from offset 2 never reads the bytes before it. -/
theorem test_session_start : seen 1 [0x90, 0x90, 0x04, 0x01] 2 = some ⟨4, .done, .exhausted, [[0x04, 0x01]]⟩ := by decide

/-- V10-6 and V10-7: a reset over the held buffer discards the old session. -/
theorem test_session_again :
    nextOf (transact (.reset .held 3) (afterError .unrecognizedOpcode (session [0x89, 0xD8, 0xF1] 0))) =
      some (session [0x89, 0xD8, 0xF1] 3) ∧
    nextOf (transact (.reset .held 0) (afterError .outOfData (session [0x89, 0xD8, 0xF1] 0))) =
      some (session [0x89, 0xD8, 0xF1] 0) := by decide

/-- A loaded zero is kept by the length, not by a cell, and reads as zero; past the end there is no byte (R70, R78). -/
theorem test_memory_zero : (session [0x05, 0x00, 0x00] 0).buf = [(0, 0x05)] ∧ (session [0x05, 0x00, 0x00] 0).byteAt 2 = some 0 ∧
    (session [0x05, 0x00, 0x00] 0).byteAt 3 = none ∧ Memory.wf (session [0x05, 0x00, 0x07] 0).buf := by decide

/-- A write keeps the list's one form: a new cell in order, an overwritten cell, a cell removed by a zero. -/
theorem test_memory_write : Memory.write [(1, 5), (4, 6)] 2 7 = [(1, 5), (2, 7), (4, 6)] ∧
    Memory.write [(1, 5), (4, 6)] 4 9 = [(1, 5), (4, 9)] ∧ Memory.write [(1, 5), (4, 6)] 1 0 = [(4, 6)] ∧
    Memory.write [(1, 5)] 3 0 = [(1, 5)] := by decide

/-- L1-10: the extractors on the spec's own bytes. -/
theorem test_extractors : modeRegRm 0xD8 = (3, 3, 0) ∧ directionBit 0x8B = 1 ∧ widthBit 0x8B = 1 ∧ widthBitShort 0xB8 = 1 ∧
    regShort 0xB8 = 0 ∧ widthBitShort 0xB4 = 0 ∧ regShort 0xB4 = 4 ∧ signBit 0x83 = 1 ∧ signBit 0x81 = 0 ∧
    modeRegRm 0x06 = (0, 0, 6) ∧ modeRegRm 0x86 = (2, 0, 6) ∧ arithOp 1 = none := by decide

/-! ### Part 4: the hypotheses of the statements can be met -/
theorem witness_FetchReadsTheBufferWithinItsLength :
    (let s := session [1, 2, 3] 0
     (2 + 2 > s.len ∧ 1 + 2 ≤ s.len) ∧ (3 + 1 > s.len ∧ 2 + 1 ≤ s.len)) := by decide

theorem witness_PeekReadsWithoutAdvancing :
    (let s := session [1, 2, 3] 0
     1 ≤ s.len ∧ 3 ≤ s.len ∧ s.byteAt (1 + 1) = some 3 ∧ s.byteAt (1 + 2) = none) := by decide

theorem witness_DisplacementSizeFollowsItsTable : (0b111 : BitVec 3) ≠ 0b110 ∧ (0b000 : BitVec 3) ≠ 0b110 := by decide

/-- The first pair of the statement's list, whatever the rest. -/
theorem witness_JumpBytesDecodeToTheirOperations (others : List (Byte × (Byte → Instr))) :
    ((0x70, .jo) : Byte × (Byte → Instr)) ∈ (0x70, .jo) :: others := .head _

theorem witness_ResolverFollowsItsFiveCases : (0b111 : BitVec 3) ≠ 0b110 ∧ (0b101 : BitVec 3) ≠ 0b110 := by decide

/-- Both clauses at every displacement size: enough bytes exactly, and one too few. -/
theorem witness_ResolverConsumesItsDisplacement :
    displacementBytes 0b00 0b000 ≤ Cursor.remaining ⟨0, []⟩ ∧ displacementBytes 0b01 0b000 ≤ Cursor.remaining ⟨0, [1]⟩ ∧
    displacementBytes 0b10 0b000 ≤ Cursor.remaining ⟨0, [1, 2]⟩ ∧ Cursor.remaining ⟨0, []⟩ < displacementBytes 0b01 0b000 ∧
    Cursor.remaining ⟨0, [1]⟩ < displacementBytes 0b10 0b000 ∧ Cursor.remaining ⟨0, [1]⟩ < displacementBytes 0b00 0b110 := by
  decide

/-- The last two bytes of a buffer hold family 1's shortest form; four hold its longest. -/
theorem witness_MovRegisterMemoryRecords :
    (session [0x89, 0xD8] 0).cur + (2 + rmBytes (.register 0)) ≤ (session [0x89, 0xD8] 0).len ∧
    (session [0x8B, 0x1E, 0x34, 0x12] 0).cur + (2 + rmBytes (.direct 0x1234)) ≤ (session [0x8B, 0x1E, 0x34, 0x12] 0).len := by
  decide

theorem witness_MovImmediateRecords :
    (session [0xC6, 0xC0, 0x05] 0).cur + (3 + rmBytes (.register 0) + (0 : BitVec 1).toNat) ≤ (session [0xC6, 0xC0, 0x05] 0).len ∧
    (session [0xC7, 0x06, 0x10, 0x00, 0x39, 0x30] 0).cur + (3 + rmBytes (.direct 0x0010) + (1 : BitVec 1).toNat) ≤
      (session [0xC7, 0x06, 0x10, 0x00, 0x39, 0x30] 0).len := by decide

theorem witness_MovShortImmediateRecords :
    (session [0xB4, 0x12] 0).cur + (2 + (0 : BitVec 1).toNat) ≤ (session [0xB4, 0x12] 0).len ∧
    (session [0xB8, 0x05, 0x00] 0).cur + (2 + (1 : BitVec 1).toNat) ≤ (session [0xB8, 0x05, 0x00] 0).len := by decide

theorem witness_MovAccumulatorRecords : (session [0xA1, 0x34, 0x12] 0).cur + 3 ≤ (session [0xA1, 0x34, 0x12] 0).len := by decide

theorem witness_ArithmeticRegisterMemoryRecords :
    (session [0x01, 0xC8] 0).cur + (2 + rmBytes (.register 0)) ≤ (session [0x01, 0xC8] 0).len ∧
    (session [0x03, 0x5E, 0xFE] 0).cur + (2 + rmBytes (.disp8 6 0xFE)) ≤ (session [0x03, 0x5E, 0xFE] 0).len := by decide

theorem witness_ArithmeticImmediateRecords :
    (5 = (if (1 : BitVec 1) = 0 ∧ (1 : BitVec 1) = 1 then 4 else 3) + rmBytes (.direct 0x0002) ∧
      (session [0x83, 0x06, 0x02, 0x00, 0x08] 0).cur + 5 ≤ (session [0x83, 0x06, 0x02, 0x00, 0x08] 0).len) ∧
    (4 = (if (0 : BitVec 1) = 0 ∧ (1 : BitVec 1) = 1 then 4 else 3) + rmBytes (.register 3) ∧
      (session [0x81, 0xC3, 0x34, 0x12] 0).cur + 4 ≤ (session [0x81, 0xC3, 0x34, 0x12] 0).len) := by decide

theorem witness_ArithmeticAccumulatorRecords :
    (session [0x04, 0x01] 0).cur + (2 + (0 : BitVec 1).toNat) ≤ (session [0x04, 0x01] 0).len ∧
    (session [0x05, 0xE8, 0x03] 0).cur + (2 + (1 : BitVec 1).toNat) ≤ (session [0x05, 0xE8, 0x03] 0).len := by decide

/-- Both clauses, at both values of the direction bit. -/
theorem witness_DirectionBitOrdersTheOperands :
    (session [0x89, 0xD8] 0).cur + (2 + rmBytes (.register 0)) ≤ (session [0x89, 0xD8] 0).len ∧
    Instr.movRmReg 0 1 3 (.register 0) ∈ [Instr.movRmReg 0 1 3 (.register 0), .addRmReg 0 1 3 (.register 0)] ∧
    (0 : BitVec 1) = 0 ∧ (1 : BitVec 1) = 1 := by decide

/-- The first pair of the statement's list, whatever the rest, over a buffer that holds just the two bytes. -/
theorem witness_ShortJumpRecords (others : List ((Byte → Instr) × OperationKind)) :
    ((.je, .je) : (Byte → Instr) × OperationKind) ∈ (.je, .je) :: others ∧
    (session [0x74, 0xFE] 0).cur + 2 ≤ (session [0x74, 0xFE] 0).len := ⟨.head _, by decide⟩

theorem witness_EmittedRecordsAreWellFormed : (Instr.movRmReg 0 1 3 (.register 0)).wf = true ∧
    (session [0x89, 0xD8] 0).cur + instrLength (.movRmReg 0 1 3 (.register 0)) ≤ (session [0x89, 0xD8] 0).len := by decide

/-- Both directions: an instruction of family 6 with `s = w = 1`, and one of another family. -/
theorem witness_ExtensionIsRequiredExactlyInFamilySix :
    ((Instr.addRmImm 1 1 (.direct 2) (.imm8 8)).wf = true ∧ (session [0x83, 0x06, 0x02, 0x00, 0x08] 0).cur +
      instrLength (.addRmImm 1 1 (.direct 2) (.imm8 8)) ≤ (session [0x83, 0x06, 0x02, 0x00, 0x08] 0).len) ∧
    ((Instr.addAccImm 0 (.imm8 1)).wf = true ∧
      (session [0x04, 0x01] 0).cur + instrLength (.addAccImm 0 (.imm8 1)) ≤ (session [0x04, 0x01] 0).len) := by decide

theorem witness_DecodeOfEncode : (Instr.movRmReg 0 1 3 (.base 0b111)).wf = true ∧ (Instr.jcxz 0xFF).wf = true ∧
    (Instr.subRmImm 0 1 (.disp16 6 0xFFFF) (.imm16 0xFFFF)).wf = true := by decide

/-- Shared by the three statements about a decode that succeeds, with a byte left over. -/
theorem witness_EncodeOfDecode : decodeAt ⟨7, [0x74, 0xFE, 0x01]⟩ = .ok (.je 0xFE) ⟨9, [0x01]⟩ := by decide

theorem witness_DecodeConsumesItsLength : decodeAt ⟨7, [0xC7, 0x06, 0x10, 0x00, 0x39, 0x30, 0x01]⟩ =
    .ok (.movRmImm 1 0 (.direct 0x0010) (.imm16 0x3039)) ⟨13, [0x01]⟩ := by decide

theorem witness_DecodeReadsNoLaterByte : decodeAt ⟨7, [0x74, 0xFE] ++ [0x01]⟩ = .ok (.je 0xFE) ⟨9, [0x01]⟩ := by decide

/-- Cut right after the opcode byte, and one byte before its end. -/
theorem witness_CutInstructionRaisesOutOfData : (Instr.movRmImm 1 0 (.direct 0x0010) (.imm16 0x3039)).wf = true ∧
    0 < 1 ∧ 1 < instrLength (.movRmImm 1 0 (.direct 0x0010) (.imm16 0x3039)) ∧
    5 < instrLength (.movRmImm 1 0 (.direct 0x0010) (.imm16 0x3039)) := by decide

theorem witness_StepRunsTheDecodedInstruction : (session [0x74, 0xFE, 0x01] 0).st = .scanning ∧
    decodeAt (session [0x74, 0xFE, 0x01] 0).cursor = .ok (.je 0xFE) ⟨2, [0x01]⟩ := by decide

theorem holds_je : HoldsAtCursor (session [0x74, 0xFE] 0) (encode (.je 0xFE)) :=
  ⟨by decide, by decide⟩

theorem witness_StepEmitsTheInstructionAtTheCursor : (session [0x74, 0xFE] 0).st = .scanning ∧ (Instr.je 0xFE).wf = true ∧
    HoldsAtCursor (session [0x74, 0xFE] 0) (encode (.je 0xFE)) := ⟨by decide, by decide, holds_je⟩

theorem witness_RecordsMatchTheCursorAdvance :
    ∃ t r, step (session [0x74, 0xFE, 0x01] 0) = .next t ∧ t.out = (session [0x74, 0xFE, 0x01] 0).out ++ [r] :=
  ⟨_, _, rfl, rfl⟩

/-- A decode that leaves a byte, so that the loop stays in `Scanning`. -/
theorem witness_LoopAppendsADecodedRecord : (session [0x74, 0xFE, 0x01] 0).st = .scanning ∧
    (∃ r, pseudoDecodeOne (session [0x74, 0xFE, 0x01] 0) (session [0x74, 0xFE, 0x01] 0).cur = .ok (r, 2)) ∧
    2 < (session [0x74, 0xFE, 0x01] 0).len := ⟨by decide, ⟨_, rfl⟩, by decide⟩

theorem witness_LoopStopsOutOfData : (session [0x74] 0).st = .scanning ∧
    pseudoDecodeOne (session [0x74] 0) (session [0x74] 0).cur = .error (.outOfData 1 1) := ⟨by decide, rfl⟩

theorem witness_LoopStopsOnUnrecognizedOpcode : (session [0xF1] 0).st = .scanning ∧
    pseudoDecodeOne (session [0xF1] 0) (session [0xF1] 0).cur = .error (.unrecognizedOpcode 0 0xF1) := ⟨by decide, rfl⟩

/-- The bytes at the edges of every range of R115, none of them in one. -/
theorem witness_UnrecognizedByteEndsTheSession :
    (session [0x06] 0).st = .scanning ∧ (session [0x06] 0).byteAt (session [0x06] 0).cur = some 0x06 ∧
    ∀ b0 ∈ ([0x06, 0x27, 0x2E, 0x37, 0x3E, 0x6F, 0x84, 0x87, 0x8C, 0x9F, 0xA4, 0xAF, 0xC0, 0xC5, 0xC8, 0xDF, 0xE4, 0xFF] : List Byte),
      ¬ (b0 ≤ 0x05) ∧ ¬ (0x28 ≤ b0 ∧ b0 ≤ 0x2D) ∧ ¬ (0x38 ≤ b0 ∧ b0 ≤ 0x3D) ∧ ¬ (0x70 ≤ b0 ∧ b0 ≤ 0x7F) ∧
      ¬ (0x80 ≤ b0 ∧ b0 ≤ 0x83) ∧ ¬ (0x88 ≤ b0 ∧ b0 ≤ 0x8B) ∧ ¬ (0xA0 ≤ b0 ∧ b0 ≤ 0xA3) ∧ ¬ (0xB0 ≤ b0 ∧ b0 ≤ 0xBF) ∧
      ¬ (0xC6 ≤ b0 ∧ b0 ≤ 0xC7) ∧ ¬ (0xE0 ≤ b0 ∧ b0 ≤ 0xE3) := by decide

/-- The first clause with a selector and no byte after it, the second with no byte after the opcode. -/
theorem witness_UnrecognizedSelectorEndsTheSession :
    ((session [0x80, 0x08] 0).st = .scanning ∧ (session [0x80, 0x08] 0).byteAt 0 = some 0x80 ∧
      (session [0x80, 0x08] 0).byteAt (0 + 1) = some 0x08 ∧ (0x08 : Byte).toNat / 8 % 8 ∈ [1, 2, 3, 4, 6]) ∧
    ((session [0x83] 0).st = .scanning ∧ (session [0x83] 0).byteAt 0 = some 0x83 ∧ (session [0x83] 0).byteAt (0 + 1) = none ∧
      (0x80 : Byte) ≤ 0x83 ∧ (0x83 : Byte) ≤ 0x83) := by decide

theorem witness_CutInstructionEndsTheSession :
    (session [0x8B, 0x86, 0x00] 0).st = .scanning ∧ (Instr.movRmReg 1 1 0 (.disp16 6 0x0100)).wf = true ∧ 0 < 3 ∧
    3 < instrLength (.movRmReg 1 1 0 (.disp16 6 0x0100)) ∧
    (session [0x8B, 0x86, 0x00] 0).len = (session [0x8B, 0x86, 0x00] 0).cur + 3 ∧
    HoldsAtCursor (session [0x8B, 0x86, 0x00] 0) ((encode (.movRmReg 1 1 0 (.disp16 6 0x0100))).take 3) :=
  ⟨by decide, by decide, by decide, by decide, by decide, by decide, by decide⟩

theorem witness_DoneIsAbsorbing : State.reset.st = .done ∧ (afterError .outOfData (session [0x74] 0)).st = .done := by decide

/-- A step that emits, and one that ends the session. -/
theorem witness_StepKeepsBufferAndExtendsOutput :
    (∃ t, step (session [0x74, 0xFE, 0x01] 0) = .next t ∧ t.cur = 2) ∧
    (∃ t, step (session [0xF1] 0) = .next t ∧ t.cur = 0) ∧ (session [0xF1] 0).cur < (session [0xF1] 0).len :=
  ⟨⟨_, rfl, by decide⟩, ⟨_, rfl, by decide⟩, by decide⟩

/-- Two states that differ in `START`, in the bytes before `CUR` and in the records emitted. -/
theorem witness_StepDependsOnTheRemainingBytesAlone :
    let s1 : State := session [0x90, 0x90, 0x04, 0x01] 2
    let s2 : State := ⟨(session [0x04, 0x01, 0x04, 0x01] 2).buf, 4, 0, 2,
      [record 0 [0x04, 0x01] .add (accumulator 0, immOperand (.imm8 1)) (scratchAcc 0)], .scanning, .none⟩
    s1.st = .scanning ∧ s2.st = .scanning ∧ s1.reason = s2.reason ∧ s1.cur = s2.cur ∧ s1.len = s2.len ∧
      (∀ a, s1.cur ≤ a → s1.byteAt a = s2.byteAt a) ∧ s1 ≠ s2 := by
  refine ⟨by decide, by decide, by decide, by decide, by decide, ?_, by decide⟩
  intro a ha
  match a, ha with
  | 2, _ => rfl
  | 3, _ => rfl
  | a + 4, _ =>
    have h : ¬ a + 4 < 4 := by omega
    show (if a + 4 < 4 then _ else _) = (if a + 4 < 4 then _ else _)
    rw [if_neg h, if_neg h]

/-- Both ends of the range of a start, at the first byte and at the length, for both resets; the held one from a session under
way and from one that ended early. -/
theorem witness_SessionBeginsAsReset :
    (0 ≤ ([0x89, 0xD8] : List Byte).length ∧ 0 < ([0x89, 0xD8] : List Byte).length ∧
      2 ≤ ([0x89, 0xD8] : List Byte).length ∧ 2 = ([0x89, 0xD8] : List Byte).length) ∧
    (let s := session [0x89, 0xD8] 0
     let s' := afterError .outOfData (session [0x89, 0xD8] 1)
     s ≠ s' ∧ s'.buf = s.buf ∧ s'.len = s.len ∧ 0 ≤ s.len ∧ 0 < s.len ∧ 2 ≤ s.len ∧ 2 = s.len) := by decide

theorem witness_HostMisuseIsRefused : ([0x89, 0xD8] : List Byte).length < 3 ∧ (session [0x89, 0xD8] 0).len < 3 := by decide

theorem witness_EveryResetEstablishesTheInvariant :
    transact (.reset (.loaded [0x89, 0xD8]) 0) State.reset = .next (session [0x89, 0xD8] 0) ∧
    BufferInv (session [0x89, 0xD8] 0) ∧ transact (.reset .held 2) (session [0x89, 0xD8] 0) = .next (session [0x89, 0xD8] 2) :=
  ⟨rfl, by decide, rfl⟩

/-- A session in the invariant, scanning, whose step emits; and one whose step ends early. -/
theorem witness_StepKeepsTheInvariant : Inv (session [0x74, 0xFE, 0x01] 0) ∧ Inv (session [0xF1] 0) ∧
    (∃ t, step (session [0x74, 0xFE, 0x01] 0) = .next t) ∧ (∃ t, step (session [0xF1] 0) = .next t) :=
  ⟨by decide, by decide, ⟨_, rfl⟩, ⟨_, rfl⟩⟩

theorem witness_EveryRunEnds : CursorInv (session [0x74, 0xFE, 0x01] 0) ∧ (session [0x74, 0xFE, 0x01] 0).st = .scanning := by
  decide

/-- One run to the end of its buffer and one that ends early. -/
theorem witness_EndOfARunIsDistinguishable :
    transact (.reset (.loaded [0x74, 0xFE]) 0) State.reset = .next (session [0x74, 0xFE] 0) ∧
    (∃ u, run 1 (session [0x74, 0xFE] 0) = .next u ∧ u.st = .done ∧ u.reason = .exhausted) ∧
    transact (.reset (.loaded [0xF1]) 0) State.reset = .next (session [0xF1] 0) ∧
    (∃ u, run 1 (session [0xF1] 0) = .next u ∧ u.st = .done ∧ u.reason = .unrecognizedOpcode) :=
  ⟨rfl, ⟨_, rfl, by decide, by decide⟩, rfl, ⟨_, rfl, by decide, by decide⟩⟩

/-- The reference capacity, 300 bytes, needs nine bits of offset. -/
theorem witness_OffsetsFitTheInstance : (HardwareInstance.mk referenceLenMax 9).wf ∧ Inv (session [0x74, 0xFE] 0) ∧
    (session [0x74, 0xFE] 0).len ≤ referenceLenMax ∧ (∃ t, step (session [0x74, 0xFE] 0) = .next t) :=
  ⟨by decide, by decide, by decide, ⟨_, rfl⟩⟩

theorem witness_InstancesAreIndependent :
    (∃ after, transactAt 0 .step [session [0x74, 0xFE] 0, session [0xF1] 0] = .next after ∧
      ∃ both, transactAt 1 .step after = .next both) ∧ (0 : Nat) ≠ 1 := ⟨⟨_, rfl, _, rfl⟩, by decide⟩

/-- A two-byte row, from reset and from a session under way. -/
theorem witness_TableWordRunsNext : State.reset.buf.wf ∧ (session [0x74, 0xFE, 0x01] 0).buf.wf ∧
    decodeTableWord 16 0x8028 = some (.subRmImm 0 0 (.base 0) (.imm8 0)) := by decide

end Sys2Proof.Tests
end

namespace Sys2Proof.Machine

/-! ### What a step answers, as an update of the state -/

/-- The ways a step answers, down to the update each makes: nothing in `Done`, the record of the decoded instruction
committed (R272), or the session ended on an error (R305). -/
theorem step_next_cases {s t : State} (h : step s = .next t) :
    (s.st = .done ∧ t = s) ∨
    (s.st = .scanning ∧ ∃ i c r, decodeAt s.cursor = .ok i c ∧ s.cur + instrLength i ≤ s.len ∧ r.address = s.cur ∧
      r.rawBytes = memRead s.buf s.cur (instrLength i) ∧ t = commit r (s.cur + instrLength i) s) ∨
    (s.st = .scanning ∧ ∃ f, t = takeError f s) := by
  rcases step_cases h with hdone | ⟨hst, i, c, hdec, hexec⟩ | ⟨hst, f, -, ht⟩
  · exact .inl hdone
  · rcases exec_cases i s with ⟨hfit, r, haddr, hraw, hr⟩ | ⟨-, herr⟩
    · rw [hr] at hexec
      injection hexec with ht
      exact .inr (.inl ⟨hst, i, c, r, hdec, hfit, haddr, hraw, ht.symm⟩)
    · rw [herr] at hexec
      injection hexec with ht
      exact .inr (.inr ⟨hst, _, ht.symm⟩)
  · exact .inr (.inr ⟨hst, f, ht⟩)

/-- A step leaves the buffer's length as it is. -/
theorem step_len {s t : State} (h : step s = .next t) : t.len = s.len := by
  rcases step_next_cases h with ⟨-, rfl⟩ | ⟨-, i, c, r, -, -, -, -, rfl⟩ | ⟨-, f, rfl⟩ <;> simp

/-! ### Where tiling records lie (R279) -/

theorem tiles_cons {r : Instruction} {rs : List Instruction} {p q : Nat} :
    tiles p (r :: rs) q = true ↔ r.address = p ∧ tiles (p + r.rawBytes.length) rs q = true := by
  simp [tiles]

/-- Tiling records end no earlier than they begin. -/
theorem le_of_tiles {rs : List Instruction} {p q : Nat} (h : tiles p rs q = true) : p ≤ q := by
  induction rs generalizing p with
  | nil => simp_all [tiles]
  | cons r rs ih =>
    have := ih (tiles_cons.mp h).2
    omega

/-- Every one of the records that tile the bytes up to `q` begins at or before `q`. -/
theorem address_le_of_tiles {rs : List Instruction} {p q : Nat} (h : tiles p rs q = true) :
    ∀ r ∈ rs, r.address ≤ q := by
  induction rs generalizing p with
  | nil => simp
  | cons r rs ih =>
    have haddr : r.address ≤ q := (tiles_cons.mp h).1 ▸ le_of_tiles h
    exact List.forall_mem_cons.mpr ⟨haddr, ih (tiles_cons.mp h).2⟩

/-! ### Every offset lies within the buffer's length -/

/-- Every offset a session holds is at most `LEN`: `START`, `CUR` and the address of each record. -/
def OffsetsWithinLength (s : State) : Prop :=
  s.start ≤ s.len ∧ s.cur ≤ s.len ∧ ∀ r ∈ s.out, r.address ≤ s.len

theorem offsetsWithinLength_of_inv {s : State} (h : Inv s) : OffsetsWithinLength s := by
  obtain ⟨-, ⟨hstart, hcur⟩, -, -, ⟨-, htiles⟩, -⟩ := h
  exact ⟨hstart.trans hcur, hcur, fun r hr => (address_le_of_tiles htiles r hr).trans hcur⟩

/-- Every step keeps the offsets within the length: a record is committed only where its bytes end within it. -/
theorem step_keeps_offsetsWithinLength {s t : State} (hs : OffsetsWithinLength s) (h : step s = .next t) :
    OffsetsWithinLength t := by
  obtain ⟨hstart, hcur, hout⟩ := hs
  rcases step_next_cases h with ⟨-, rfl⟩ | ⟨-, i, c, r, -, hfit, haddr, -, rfl⟩ | ⟨-, f, rfl⟩
  · exact ⟨hstart, hcur, hout⟩
  · have hr : r.address ≤ s.len := haddr.trans_le hcur
    exact ⟨hstart, hfit, List.forall_mem_append.mpr ⟨hout, List.forall_mem_singleton.mpr hr⟩⟩
  · exact ⟨hstart, hcur, hout⟩

/-- Settles O54: a step keeps every offset at most `LEN`, and `LEN` at most `LEN_MAX`, which the instance's offset bits
hold (R13). -/
theorem offsetsFitTheInstance : Obligations.OffsetsFitTheInstance := by
  intro h s t hwf hinv hcap hstep
  obtain ⟨hstart, hcur, hout⟩ := step_keeps_offsetsWithinLength (offsetsWithinLength_of_inv hinv) hstep
  have hlen : t.len < 2 ^ h.offsetBits := by
    calc t.len = s.len := step_len hstep
      _ ≤ h.lenMax := hcap
      _ < 2 ^ h.offsetBits := hwf
  exact ⟨hlen, hstart.trans_lt hlen, hcur.trans_lt hlen, fun r hr => (hout r hr).trans_lt hlen⟩

end Sys2Proof.Machine

namespace Sys2Proof.Machine

/-! ### Lengths of instructions (R44, R112) -/

theorem rmBytes_le_two (m : RmField) : rmBytes m ≤ 2 := by
  unfold rmBytes displacementBytes
  split_ifs <;> decide

/-- R44, R112: every instruction is 2 to 6 bytes long. -/
theorem instrLength_bounds (i : Instr) : 2 ≤ instrLength i ∧ instrLength i ≤ 6 := by
  cases i with
  | movRmReg d w reg m | addRmReg d w reg m | subRmReg d w reg m | cmpRmReg d w reg m =>
    have := rmBytes_le_two m
    simp only [instrLength, rmRegLength]; omega
  | movRmImm w reg m imm =>
    have := rmBytes_le_two m
    simp only [instrLength, movRmImmLength]; omega
  | addRmImm sx w m imm | subRmImm sx w m imm | cmpRmImm sx w m imm =>
    have := rmBytes_le_two m
    simp only [instrLength, arithRmImmLength]; split_ifs <;> omega
  | movRegImm w reg imm | addAccImm w imm | subAccImm w imm | cmpAccImm w imm =>
    simp only [instrLength, shortImmLength]; omega
  | _ => simp [instrLength, accMemLength, jumpLength]

/-! ### The record of an instruction is well formed (R31, R35 to R37, R41, R44) -/

theorem record_wf_iff {a : Nat} {raw : List Byte} {op : OperationKind} {ops : OperandKind × OperandKind} {x : Scratch} :
    (record a raw op ops x).wf = true ↔ op ≠ .unknown ∧ op ≠ .ret ∧ ops.1.wf = true ∧ ops.2.wf = true ∧
      2 ≤ raw.length ∧ raw.length ≤ 6 := by
  simp only [Instruction.wf, Bool.and_eq_true, bne_iff_ne, decide_eq_true_eq, and_assoc]
  rfl

@[simp] theorem operandNone_wf : OperandKind.none.wf = true := rfl

@[simp] theorem accumulator_wf (w : BitVec 1) : (accumulator w).wf = true := registerOperand_wf w _

@[simp] theorem directMem_wf (address : Word) : (directMem address).wf = true := rfl

@[simp] theorem jumpOperand_wf (disp8 : Byte) : (jumpOperand disp8).wf = true := immOperand_wf _

/-- Operands keep their invariants in either order (R186). -/
theorem orderByDirection_wf (d w : BitVec 1) (reg : BitVec 3) (m : RmField) :
    (orderByDirection d (rmOperand w m) (registerOperand w reg)).1.wf = true ∧
      (orderByDirection d (rmOperand w m) (registerOperand w reg)).2.wf = true := by
  unfold orderByDirection
  split <;> simp

/-- Every meaning is one `emit` of a recognized operation with well-formed operands. -/
theorem exec_emits_wf (i : Instr) :
    ∃ op ops x, (∀ s : State, exec i s = emit (instrLength i) op ops x s) ∧
      op ≠ .unknown ∧ op ≠ .ret ∧ ops.1.wf = true ∧ ops.2.wf = true := by
  cases i with
  | movRmReg d w reg m | addRmReg d w reg m | subRmReg d w reg m | cmpRmReg d w reg m =>
    exact ⟨_, _, _, fun _ => rfl, by decide, by decide, orderByDirection_wf d w reg m⟩
  | _ => exact ⟨_, _, _, fun _ => rfl, by decide, by decide, by simp, by simp⟩

/-- Where its bytes are there, an instruction commits a well-formed record. -/
theorem exec_commits_wf {i : Instr} {s : State} (h : s.cur + instrLength i ≤ s.len) :
    ∃ r : Instruction, exec i s = .next (commit r (s.cur + instrLength i) s) ∧ r.wf = true := by
  obtain ⟨op, ops, x, hexec, hunknown, hret, hdst, hsrc⟩ := exec_emits_wf i
  refine ⟨_, (hexec s).trans (emit_fits h), record_wf_iff.mpr ⟨hunknown, hret, hdst, hsrc, ?_⟩⟩
  simpa using instrLength_bounds i

/-- A step that adds a record adds a well-formed one. -/
theorem wf_of_step_commit {s : State} {i : Instr} {c : Cursor} {r : Instruction} (hst : s.st = .scanning)
    (hdec : decodeAt s.cursor = .ok i c) (hfit : s.cur + instrLength i ≤ s.len)
    (h : step s = .next (commit r (s.cur + instrLength i) s)) : r.wf = true := by
  obtain ⟨r', hexec, hwf⟩ := exec_commits_wf hfit
  rw [step_ok hst hdec, hexec] at h
  injection h with h
  have hr : r' = r := by simpa using congrArg State.out h
  exact hr ▸ hwf

/-! ### The invariant over the updates of a step -/

/-- Records that tile up to a byte still do with a record that begins there. -/
theorem tiles_concat {r : Instruction} {rs : List Instruction} {p q : Nat} (h : tiles p rs q = true)
    (hr : r.address = q) : tiles p (rs ++ [r]) (q + r.rawBytes.length) = true := by
  induction rs generalizing p with
  | nil => simp_all [tiles]
  | cons x xs ih => exact tiles_cons.mpr ⟨(tiles_cons.mp h).1, ih (tiles_cons.mp h).2⟩

/-- The tiling goes on with a record that begins at `CUR` and holds the buffer's own bytes from there (R54, R279). -/
theorem commit_tilingInv {s : State} {r : Instruction} {n : Nat} (hstart : s.start ≤ s.cur) (h : TilingInv s)
    (haddr : r.address = s.cur) (hraw : r.rawBytes = memRead s.buf s.cur n) :
    TilingInv (commit r (s.cur + n) s) := by
  obtain ⟨hbytes, htiles⟩ := h
  have hn : r.rawBytes.length = n := by simp [hraw]
  refine ⟨?_, hn ▸ tiles_concat htiles haddr⟩
  calc (s.out ++ [r]).flatMap (fun r => r.rawBytes)
      = memRead s.buf s.start (s.cur - s.start) ++ memRead s.buf s.cur n := by simp [hbytes, hraw]
    _ = memRead s.buf s.start (s.cur - s.start + n) := by rw [memRead_add, Nat.add_sub_cancel' hstart]
    _ = memRead s.buf s.start (s.cur + n - s.start) := by rw [Nat.sub_add_comm hstart]

/-- Committing a well-formed record of the bytes at `CUR` keeps the invariant: the session is over and exhausted exactly
when no byte remains, and scans on otherwise (R272, R273). -/
theorem commit_inv {s : State} {r : Instruction} {n : Nat} (h : Inv s) (hst : s.st = .scanning)
    (hfit : s.cur + n ≤ s.len) (haddr : r.address = s.cur) (hraw : r.rawBytes = memRead s.buf s.cur n)
    (hr : r.wf = true) : Inv (commit r (s.cur + n) s) := by
  obtain ⟨hbuf, ⟨hstart, -⟩, ⟨hscan, -, -⟩, -, htiling, hrecords⟩ := h
  have hreason : s.reason = .none := (hscan hst).2
  obtain ⟨hloop, hearly⟩ : LoopInv (commit r (s.cur + n) s) ∧ EarlyEndInv (commit r (s.cur + n) s) := by
    by_cases hend : s.cur + n = s.len
    · simp [LoopInv, EarlyEndInv, hend]
    · simp [LoopInv, EarlyEndInv, hend, hst, hreason, lt_of_le_of_ne hfit hend]
  exact ⟨hbuf, ⟨Nat.le_add_right_of_le hstart, hfit⟩, hloop, hearly, commit_tilingInv hstart htiling haddr hraw,
    List.forall_mem_append.mpr ⟨hrecords, List.forall_mem_singleton.mpr hr⟩⟩

/-- Ending a scanning session on an error keeps the invariant: a byte remained, so the end is an early one (R280, R305). -/
theorem takeError_inv {s : State} (f : Fault) (h : Inv s) (hst : s.st = .scanning) : Inv (takeError f s) := by
  obtain ⟨hbuf, hcursor, ⟨hscan, -, -⟩, -, htiling, hrecords⟩ := h
  refine ⟨hbuf, hcursor, ?_, fun _ => (hscan hst).1, htiling, hrecords⟩
  cases f <;> simp [LoopInv, reasonOf]

/-- Settles O51: a step leaves the state, commits a well-formed record of the bytes at `CUR`, or ends the session early. -/
theorem stepKeepsTheInvariant : Obligations.StepKeepsTheInvariant := by
  intro s t hinv hstep
  rcases step_next_cases hstep with ⟨-, rfl⟩ | ⟨hst, i, c, r, hdec, hfit, haddr, hraw, rfl⟩ | ⟨hst, f, rfl⟩
  · exact hinv
  · exact commit_inv hinv hst hfit haddr hraw (wf_of_step_commit hst hdec hfit hstep)
  · exact takeError_inv f hinv hst

/-- Settles O26: the record an instruction commits is well formed, whatever its fields. -/
theorem emittedRecordsAreWellFormed : Obligations.EmittedRecordsAreWellFormed := by
  intro i s _ hfit
  obtain ⟨r, hexec, hwf⟩ := exec_commits_wf hfit
  exact ⟨_, r, hexec, rfl, hwf⟩

/-! ### When a record asks for sign extension (R38, R188) -/

/-- A record whose second operand is an immediate asks for extension when one byte was read under `w = 1`. -/
theorem record_extensionRequired_imm {a : Nat} {raw : List Byte} {op : OperationKind} {o : OperandKind} {imm : ImmField}
    {x : Scratch} :
    (record a raw op (o, immOperand imm) x).extensionRequired = true ↔ imm.sized 1 = true ∧ x.width = 1 := by
  cases imm <;> simp [Instruction.extensionRequired, record, immOperand, ImmField.sized]

/-- Families 2, 3 and 7 read `1 + w` bytes, so a one-byte immediate comes with `w = 0`. -/
theorem not_sized_one_of_width {imm : ImmField} {w : BitVec 1} (h : imm.sized (immBytes w) = true) :
    ¬ (imm.sized 1 = true ∧ w = 1) := by
  rintro ⟨h1, rfl⟩
  cases imm <;> simp_all [ImmField.sized, immBytes]

/-- Family 6 reads one byte under `w = 1` exactly when `s = 1`. -/
theorem sized_one_iff_of_signed {imm : ImmField} {sx w : BitVec 1} (h : imm.sized (immBytesSigned sx w) = true) :
    (imm.sized 1 = true ∧ w = 1) ↔ (sx = 1 ∧ w = 1) := by
  refine and_congr_left ?_
  rintro rfl
  rcases BitVec.eq_zero_or_eq_one sx with rfl | rfl <;> cases imm <;> simp_all [ImmField.sized, immBytesSigned]

/-- A register or memory operand in the second slot asks for nothing. -/
theorem record_not_extensionRequired_rmReg {a : Nat} {raw : List Byte} {op : OperationKind} {d w : BitVec 1}
    {reg : BitVec 3} {m : RmField} {x : Scratch} :
    ¬ (record a raw op (orderByDirection d (rmOperand w m) (registerOperand w reg)) x).extensionRequired = true := by
  unfold orderByDirection
  split
  · exact Bool.false_ne_true
  · cases m <;> exact Bool.false_ne_true

/-- The instructions of family 6 with `s = 1` and `w = 1` (R188). -/
def ExtendsByteImmediate (i : Instr) : Prop :=
  ∃ m imm, i = .addRmImm 1 1 m imm ∨ i = .subRmImm 1 1 m imm ∨ i = .cmpRmImm 1 1 m imm

/-- Every meaning is one `emit`, whose record asks for extension exactly in family 6 with `s = 1` and `w = 1`. -/
theorem exec_emits_extension {i : Instr} (h : i.wf = true) :
    ∃ op ops x, (∀ s : State, exec i s = emit (instrLength i) op ops x s) ∧
      ∀ a raw, (record a raw op ops x).extensionRequired = true ↔ ExtendsByteImmediate i := by
  cases i with
  | movRmReg d w reg m | addRmReg d w reg m | subRmReg d w reg m | cmpRmReg d w reg m =>
    exact ⟨_, _, _, fun _ => rfl, fun _ _ =>
      iff_of_false record_not_extensionRequired_rmReg (by simp [ExtendsByteImmediate])⟩
  | movRmImm w reg m imm =>
    have hsized := (Bool.and_eq_true_iff.mp h).2
    exact ⟨_, _, _, fun _ => rfl, fun _ _ => record_extensionRequired_imm.trans
      (iff_of_false (not_sized_one_of_width hsized) (by simp [ExtendsByteImmediate]))⟩
  | movRegImm w reg imm | addAccImm w imm | subAccImm w imm | cmpAccImm w imm =>
    exact ⟨_, _, _, fun _ => rfl, fun _ _ => record_extensionRequired_imm.trans
      (iff_of_false (not_sized_one_of_width h) (by simp [ExtendsByteImmediate]))⟩
  | addRmImm sx w m imm | subRmImm sx w m imm | cmpRmImm sx w m imm =>
    have hsized := (Bool.and_eq_true_iff.mp h).2
    exact ⟨_, _, _, fun _ => rfl, fun _ _ => record_extensionRequired_imm.trans
      ((sized_one_iff_of_signed hsized).trans (by simp [ExtendsByteImmediate]))⟩
  | _ => exact ⟨_, _, _, fun _ => rfl, fun _ _ =>
      iff_of_false Bool.false_ne_true (by simp [ExtendsByteImmediate])⟩

/-- Settles O27: of the one-byte immediates only family 6 with `s = 1` has one under `w = 1`. -/
theorem extensionIsRequiredExactlyInFamilySix : Obligations.ExtensionIsRequiredExactlyInFamilySix := by
  intro i s hwf hfit
  obtain ⟨op, ops, x, hexec, hext⟩ := exec_emits_extension hwf
  exact ⟨_, _, (hexec s).trans (emit_fits hfit), rfl, hext _ _⟩

/-! ### What a step reads and what it leaves (R43, R46 to R48, R50, R53, R72, R77) -/

/-- Settles O35: only a commit adds a record, and it adds the one whose bytes the cursor moves past. -/
theorem recordsMatchTheCursorAdvance : Obligations.RecordsMatchTheCursorAdvance := by
  intro s t r hstep hout
  rcases step_next_cases hstep with ⟨-, rfl⟩ | ⟨-, i, c, r', -, -, haddr, hraw, rfl⟩ | ⟨-, f, rfl⟩
  · simp at hout
  · obtain rfl : r' = r := by simpa using hout
    have hlen : r'.rawBytes.length = instrLength i := by simp [hraw]
    exact ⟨haddr, hlen ▸ rfl, hlen ▸ hraw, hlen ▸ rfl⟩
  · simp at hout

/-- What an offset of the buffer holds depends on the buffer and its length alone. -/
theorem byteAt_congr {s t : State} (hbuf : t.buf = s.buf) (hlen : t.len = s.len) (a : Nat) : t.byteAt a = s.byteAt a := by
  simp only [State.byteAt, hbuf, hlen]

/-- No step writes the buffer (R77). -/
theorem step_buf {s t : State} (h : step s = .next t) : t.buf = s.buf := by
  rcases step_next_cases h with ⟨-, rfl⟩ | ⟨-, i, c, r, -, -, -, -, rfl⟩ | ⟨-, f, rfl⟩ <;> simp

/-- Settles O45: a commit moves `CUR` by the instruction's 2 to 6 bytes and not past `LEN`; an error ends the session. -/
theorem stepKeepsBufferAndExtendsOutput : Obligations.StepKeepsBufferAndExtendsOutput := by
  intro s t hstep
  have hbytes : ∀ a, t.byteAt a = s.byteAt a := byteAt_congr (step_buf hstep) (step_len hstep)
  refine ⟨step_buf hstep, step_len hstep, ?_⟩
  rcases step_next_cases hstep with ⟨hdone, rfl⟩ | ⟨-, i, c, r, -, hfit, -, -, rfl⟩ | ⟨-, f, rfl⟩
  · exact ⟨rfl, hbytes, .inl rfl, le_rfl, id, fun _ _ => .inr hdone⟩
  · have hmove : s.cur + 2 ≤ s.cur + instrLength i := Nat.add_le_add_left (instrLength_bounds i).1 _
    exact ⟨rfl, hbytes, .inr ⟨r, rfl⟩, Nat.le_add_right _ _, fun _ => hfit, fun _ _ => .inl hmove⟩
  · exact ⟨rfl, hbytes, .inl rfl, le_rfl, id, fun _ _ => .inr rfl⟩

/-! ### Sessions (R54, R58, R330 to R333) -/

/-- A session over a buffer in canonical form begins in the invariant (R330). -/
theorem restart_inv {s : State} {start : Nat} (hbuf : BufferInv s) (hstart : start ≤ s.len) : Inv (restart start s) := by
  obtain ⟨hloop, hearly⟩ : LoopInv (restart start s) ∧ EarlyEndInv (restart start s) := by
    rcases hstart.lt_or_eq with hlt | rfl
    · simp [LoopInv, EarlyEndInv, hlt]
    · simp [LoopInv, EarlyEndInv]
  exact ⟨hbuf, ⟨le_rfl, hstart⟩, hloop, hearly, by simp [TilingInv, memRead, tiles], by simp [RecordsInv]⟩

/-- A reset over the held buffer answers exactly where the start is within it. -/
theorem transact_reset_held_eq_next {s t : State} {start : Nat} :
    transact (.reset .held start) s = .next t ↔ start ≤ s.len ∧ restart start s = t := by
  by_cases h : start ≤ s.len <;> simp [transact, h]

/-- A reset over a loaded buffer answers exactly where the start is within it. -/
theorem transact_reset_loaded_eq_next {s t : State} {bytes : List Byte} {start : Nat} :
    transact (.reset (.loaded bytes) start) s = .next t ↔ start ≤ bytes.length ∧ beginSession bytes start s = t := by
  by_cases h : start ≤ bytes.length <;> simp [transact, h]

/-- Settles O50: either reset is a `restart` over a buffer in canonical form, the loaded one by the laws of a load. -/
theorem everyResetEstablishesTheInvariant : Obligations.EveryResetEstablishesTheInvariant := by
  intro s t start
  constructor
  · intro bytes h
    obtain ⟨hstart, rfl⟩ := transact_reset_loaded_eq_next.mp h
    exact restart_inv ⟨Memory.load_wf bytes, Memory.load_bounded bytes⟩ hstart
  · intro hbuf h
    obtain ⟨hstart, rfl⟩ := transact_reset_held_eq_next.mp h
    exact restart_inv hbuf hstart

/-- Settles O49: the reset state is a session begun over an empty buffer (R62). -/
theorem resetStateMeetsTheInvariant : Obligations.ResetStateMeetsTheInvariant :=
  restart_inv (s := State.reset) (start := 0) ⟨Memory.nil_wf, by simp [State.reset]⟩ le_rfl

/-- Settles O48: a write is refused outright, a reset by the check of its source and start. -/
theorem hostMisuseIsRefused : Obligations.HostMisuseIsRefused := by
  intro s a start b bytes
  exact ⟨rfl, rfl, fun h => if_neg (Nat.not_le.mpr h), fun h => if_neg (Nat.not_le.mpr h)⟩

/-! ### The closed set of operations (R40) -/

/-- Settles O8: the list has 26 entries, no two the same, and every constructor stands in it. -/
theorem operationKindsAreTwentySix : Obligations.OperationKindsAreTwentySix := by
  refine ⟨rfl, by decide, fun k => ?_⟩
  cases k <;> decide

end Sys2Proof.Machine

namespace Sys2Proof.Machine

/-! ### Reads that agree (R70, R75) -/

/-- Buffers that agree on `n` offsets from `p` read alike there. -/
theorem memRead_congr {m1 m2 : Memory} {p n : Nat} (h : ∀ k, k < n → m1.read (p + k) = m2.read (p + k)) :
    memRead m1 p n = memRead m2 p n := by
  refine List.ext_getElem? fun k => ?_
  rw [memRead_getElem?, memRead_getElem?]
  exact if_ctx_congr Iff.rfl (fun hk => congrArg some (h k hk)) fun _ => rfl

/-- Below `LEN` the byte of an offset is the one the buffer reads there. -/
theorem byteAt_of_lt {s : State} {a : Nat} (h : a < s.len) : s.byteAt a = some (s.buf.read a) := if_pos h

/-- What a step can see of two states is the same: the loop's state, `CUR`, `LEN` and the bytes from `CUR` on. Their
records, `START` and earlier bytes may differ. -/
structure AgreeFromCursor (s1 s2 : State) : Prop where
  st     : s1.st = s2.st
  reason : s1.reason = s2.reason
  cur    : s1.cur = s2.cur
  len    : s1.len = s2.len
  bytes  : ∀ a, s1.cur ≤ a → s1.byteAt a = s2.byteAt a

/-- States that agree from `CUR` on read the same bytes there, as far as the buffer goes. -/
theorem AgreeFromCursor.memRead_eq {s1 s2 : State} (h : AgreeFromCursor s1 s2) {n : Nat} (hn : n ≤ s1.len - s1.cur) :
    memRead s1.buf s1.cur n = memRead s2.buf s2.cur n := by
  rw [← h.cur]
  refine memRead_congr fun k hk => ?_
  have hlt : s1.cur + k < s1.len := by omega
  have hbyte := h.bytes (s1.cur + k) (Nat.le_add_right _ _)
  rw [byteAt_of_lt hlt, byteAt_of_lt (h.len ▸ hlt)] at hbyte
  exact Option.some.inj hbyte

/-- So their decodes begin with the same cursor. -/
theorem AgreeFromCursor.cursor_eq {s1 s2 : State} (h : AgreeFromCursor s1 s2) : s1.cursor = s2.cursor := by
  have hbytes := h.memRead_eq le_rfl
  rw [State.cursor, State.cursor, hbytes, h.cur, h.len]

/-! ### What a step does depends on the bytes from `CUR` on alone (R85, R113, R281) -/

/-- Two outcomes that show the same: next states with the same `CUR`, `ST` and `REASON`, which have appended the same
records to those of `s1` and `s2`. -/
def AnswerAlike (s1 s2 : State) (o1 o2 : Host.Outcome State Fault Refusal) : Prop :=
  ∃ t1 t2 new, o1 = .next t1 ∧ o2 = .next t2 ∧ t1.cur = t2.cur ∧ t1.st = t2.st ∧ t1.reason = t2.reason ∧
    t1.out = s1.out ++ new ∧ t2.out = s2.out ++ new

theorem AgreeFromCursor.commit_alike {s1 s2 : State} (h : AgreeFromCursor s1 s2) (r : Instruction) (p : Nat) :
    AnswerAlike s1 s2 (.next (commit r p s1)) (.next (commit r p s2)) :=
  ⟨_, _, [r], rfl, rfl, rfl, by simp [h.len, h.st], by simp [h.len, h.reason], rfl, rfl⟩

theorem AgreeFromCursor.takeError_alike {s1 s2 : State} (h : AgreeFromCursor s1 s2) (f : Fault) :
    AnswerAlike s1 s2 (.next (takeError f s1)) (.next (takeError f s2)) :=
  ⟨_, _, [], rfl, rfl, h.cur, rfl, rfl, by simp, by simp⟩

/-- A meaning takes the record's raw bytes from `CUR` on and nothing else from the buffer. -/
theorem AgreeFromCursor.exec_alike {s1 s2 : State} (h : AgreeFromCursor s1 s2) (i : Instr) :
    AnswerAlike s1 s2 (exec i s1) (exec i s2) := by
  obtain ⟨op, ops, x, hexec⟩ := exec_emits i
  rw [hexec s1, hexec s2]
  rcases Nat.lt_or_ge s1.len (s1.cur + instrLength i) with hshort | hfit
  · rw [emit_short hshort, emit_short (h.len ▸ h.cur ▸ hshort), ← h.cur]
    exact h.takeError_alike _
  · have hraw := h.memRead_eq (Nat.le_sub_of_add_le' hfit)
    rw [emit_fits hfit, emit_fits (h.len ▸ h.cur ▸ hfit), hraw, h.cur]
    exact h.commit_alike _ _

/-- Settles O46: both states decode from the same cursor, and what follows the decode agrees. -/
theorem stepDependsOnTheRemainingBytesAlone : Obligations.StepDependsOnTheRemainingBytesAlone := by
  intro s1 s2 hst1 hst2 hreason hcur hlen hbytes
  have h : AgreeFromCursor s1 s2 := ⟨hst1.trans hst2.symm, hreason, hcur, hlen, hbytes⟩
  change AnswerAlike s1 s2 (step s1) (step s2)
  cases hdec : decodeAt s1.cursor with
  | ok i c =>
    rw [step_ok hst1 hdec, step_ok hst2 (h.cursor_eq ▸ hdec)]
    exact h.exec_alike i
  | fail f =>
    rw [step_fail hst1 hdec, step_fail hst2 (h.cursor_eq ▸ hdec)]
    exact h.takeError_alike f

/-! ### The cursor over the buffer (R73 to R75) -/

@[simp] theorem cursorFrom_position (s : State) (p : Nat) : (cursorFrom s p).position = p := rfl

@[simp] theorem cursorFrom_remaining (s : State) (p : Nat) : (cursorFrom s p).remaining = s.len - p :=
  memRead_length _ _ _

/-- The bytes that remain at a cursor are those of the buffer from its offset on; past `LEN` there is none. -/
theorem cursorFrom_rest_getElem? (s : State) (p k : Nat) : (cursorFrom s p).rest[k]? = s.byteAt (p + k) :=
  (memRead_getElem? _ _ _ _).trans (if_congr Nat.lt_sub_iff_add_lt' rfl rfl)

/-- With `n` bytes left, what remains at a cursor is those and then what remains past them. -/
theorem cursorFrom_rest_split {s : State} {p n : Nat} (h : p + n ≤ s.len) :
    (cursorFrom s p).rest = memRead s.buf p n ++ (cursorFrom s (p + n)).rest := by
  have hlen : s.len - p = n + (s.len - (p + n)) := by omega
  calc memRead s.buf p (s.len - p)
      = memRead s.buf p (n + (s.len - (p + n))) := by rw [← hlen]
    _ = memRead s.buf p n ++ memRead s.buf (p + n) (s.len - (p + n)) := memRead_add _ _ _ _

/-- R75, enough bytes left: they are read in order, and the cursor stands past them. -/
theorem cursorFrom_fetch_fits {s : State} {p n : Nat} (h : p + n ≤ s.len) :
    (cursorFrom s p).fetch n = .ok (memRead s.buf p n) (cursorFrom s (p + n)) := by
  have hroom : n ≤ (cursorFrom s p).remaining := by rw [cursorFrom_remaining]; omega
  rw [Cursor.fetch, if_pos hroom, cursorFrom_rest_split h, List.take_left' (memRead_length _ _ _),
    List.drop_left' (memRead_length _ _ _)]
  rfl

/-- R75, too few bytes left: the read raises `OutOfData` at the cursor's own offset. -/
theorem cursorFrom_fetch_short {s : State} {p n : Nat} (hn : 0 < n) (h : s.len < p + n) :
    (cursorFrom s p).fetch n = .fail (.outOfData p n) := by
  have hroom : ¬ n ≤ (cursorFrom s p).remaining := by rw [cursorFrom_remaining]; omega
  exact if_neg hroom

/-- Settles O1: the check of R75 decides which of the two clauses a read of one or two bytes falls under. -/
theorem fetchReadsTheBufferWithinItsLength : Obligations.FetchReadsTheBufferWithinItsLength := by
  intro s p n hn
  have hpos : 0 < n := by omega
  exact ⟨cursorFrom_fetch_short hpos, cursorFrom_fetch_fits⟩

theorem peekByte_of_some {c : Cursor} {k : Nat} {b : Byte} (h : c.rest[k]? = some b) : c.peekByte k = .ok b c := by
  simp [Cursor.peekByte, h]

theorem peekByte_of_none {c : Cursor} {k : Nat} (h : c.rest[k]? = none) :
    c.peekByte k = .fail (.outOfData c.pos (k + 1)) := by
  simp [Cursor.peekByte, h]

/-- Settles O3: what remains at `k` is the buffer's byte at `p + k`, or none past the end. -/
theorem peekReadsWithoutAdvancing : Obligations.PeekReadsWithoutAdvancing := by
  intro s p k _
  rw [← cursorFrom_rest_getElem?]
  exact ⟨cursorFrom_position s p, cursorFrom_remaining s p, fun _ => peekByte_of_some,
    fun h => ⟨_, peekByte_of_none h⟩⟩

/-! ### The frame of every meaning (R77, R272, R305) -/

/-- Settles O25: a meaning commits one record or ends the session out of data, and neither touches the buffer. -/
theorem meaningsChangeOnlyOutputAndCursor : Obligations.MeaningsChangeOnlyOutputAndCursor := by
  intro i s
  rcases exec_cases i s with ⟨hfit, r, -, -, hexec⟩ | ⟨hshort, hexec⟩
  · exact ⟨_, hexec, rfl, rfl, rfl, fun _ => rfl, .inl ⟨hfit, rfl, r, rfl⟩⟩
  · exact ⟨_, hexec, rfl, rfl, rfl, fun _ => rfl, .inr ⟨hshort, rfl⟩⟩

/-! ### Several blocks (R90, R311) -/

/-- A transaction with block `k` that answers replaces that block by what it answers, and no other; where there is no
block `k` nothing is replaced. -/
theorem transactAt_eq_next {k : Nat} {c : Command} {blocks after : List State} :
    transactAt k c blocks = .next after ↔
      ∃ t, (∀ s, blocks[k]? = some s → transact c s = .next t) ∧ blocks.set k t = after := by
  cases hk : blocks[k]? with
  | none =>
    have hset : ∀ t, blocks.set k t = blocks := fun t => List.set_eq_of_length_le (List.getElem?_eq_none_iff.mp hk)
    have : Nonempty State := ⟨State.reset⟩
    simp [transactAt, hk, hset]
  | some s => cases hc : transact c s <;> simp [transactAt, hk, hc]

/-- Settles O55: each transaction sets its own entry of the list, and sets at two places commute. -/
theorem instancesAreIndependent : Obligations.InstancesAreIndependent := by
  intro blocks after j k c c' hjk hj
  obtain ⟨t, ht, rfl⟩ := transactAt_eq_next.mp hj
  refine ⟨List.getElem?_set_ne hjk, List.length_set, fun both hk => ?_⟩
  obtain ⟨t', ht', rfl⟩ := transactAt_eq_next.mp hk
  rw [List.getElem?_set_ne hjk] at ht'
  refine ⟨blocks.set k t', transactAt_eq_next.mpr ⟨t', ht', rfl⟩, transactAt_eq_next.mpr ⟨t, ?_, ?_⟩⟩
  · rwa [List.getElem?_set_ne hjk.symm]
  · exact List.set_comm _ _ hjk.symm

/-! ### Byte order (R79, R80) -/

/-- R203: after the opcode byte of a family-4 load come the two bytes of its address (D11). -/
theorem decodeAt_f4Load {b0 : Byte} (h : classify b0 = .f4Load) (p : Nat) (lo hi : Byte) (rest : List Byte) :
    decodeAt ⟨p, b0 :: lo :: hi :: rest⟩ = .ok (.movAccMem (widthBit b0) (wordOf hi lo)) ⟨p + 3, rest⟩ := by
  simp [decodeAt, h]

/-- Settles O2: every two-byte read is the cursor's `Fetch16`, whose word has the first byte in bits 7:0. -/
theorem wordsAreLittleEndian : Obligations.WordsAreLittleEndian := by
  refine ⟨fun p first second rest => ?_, by decide, by decide⟩
  refine ⟨wordOf second first, lowByte_wordOf second first, highByte_wordOf second first,
    fetchWord_cons p first second rest, fun rm => ?_, ?_, ?_, decodeAt_f4Load (by decide) p first second rest⟩
  · simp [readRm]
  · simp [readRm]
  · simp [readImm]

end Sys2Proof.Machine

namespace Sys2Proof.Machine

/-! ### The opcode byte of each family (R102 to R106) -/

/-- R102, family 1: the opcode byte is `100010dw`. -/
theorem opcode_movRmReg_iff {b0 : Byte} {d w : BitVec 1} :
    classify b0 = .f1 ∧ directionBit b0 = d ∧ widthBit b0 = w ↔ b0 = 0b100010#6 ++ d ++ w := by
  constructor
  · rintro ⟨h, rfl, rfl⟩; revert b0; decide
  · rintro rfl; revert d w; decide

/-- R102, family 2: the opcode byte is `1100011w`. -/
theorem opcode_movRmImm_iff {b0 : Byte} {w : BitVec 1} :
    classify b0 = .f2 ∧ widthBit b0 = w ↔ b0 = 0b1100011#7 ++ w := by
  constructor
  · rintro ⟨h, rfl⟩; revert b0; decide
  · rintro rfl; revert w; decide

/-- R102, family 3: the opcode byte is `1011wreg`. -/
theorem opcode_movRegImm_iff {b0 : Byte} {w : BitVec 1} {reg : BitVec 3} :
    classify b0 = .f3 ∧ widthBitShort b0 = w ∧ regShort b0 = reg ↔ b0 = 0b1011#4 ++ w ++ reg := by
  constructor
  · rintro ⟨h, rfl, rfl⟩; revert b0; decide
  · rintro rfl; revert w reg; decide

/-- R102, family 4: the opcode byte of a load is `1010000w`. -/
theorem opcode_movAccMem_iff {b0 : Byte} {w : BitVec 1} :
    classify b0 = .f4Load ∧ widthBit b0 = w ↔ b0 = 0b1010000#7 ++ w := by
  constructor
  · rintro ⟨h, rfl⟩; revert b0; decide
  · rintro rfl; revert w; decide

/-- R102, family 4: the opcode byte of a store is `1010001w`. -/
theorem opcode_movMemAcc_iff {b0 : Byte} {w : BitVec 1} :
    classify b0 = .f4Store ∧ widthBit b0 = w ↔ b0 = 0b1010001#7 ++ w := by
  constructor
  · rintro ⟨h, rfl⟩; revert b0; decide
  · rintro rfl; revert w; decide

/-- A selector names an operation exactly when it is the one the encoder writes for it (R148). -/
theorem arithOp_eq_some_iff {f : BitVec 3} {op : ArithOp} : arithOp f = some op ↔ arithSelector op = f := by
  revert f; cases op <;> decide

/-- R102, R106, family 5: the opcode byte is `00ooo0dw`. -/
theorem opcode_rmReg_iff {b0 : Byte} {op : ArithOp} {d w : BitVec 1} :
    classify b0 = .f5 ∧ arithOp (opField b0) = some op ∧ directionBit b0 = d ∧ widthBit b0 = w ↔
      b0 = 0b00#2 ++ arithSelector op ++ 0b0#1 ++ d ++ w := by
  rw [arithOp_eq_some_iff]
  constructor
  · rintro ⟨h, hop, rfl, rfl⟩; rw [hop]; clear hop; revert b0; decide
  · rintro rfl; revert d w; cases op <;> decide

/-- R102, family 6: the opcode byte is `100000sw`. -/
theorem opcode_rmImm_iff {b0 : Byte} {sx w : BitVec 1} :
    classify b0 = .f6 ∧ signBit b0 = sx ∧ widthBit b0 = w ↔ b0 = 0b100000#6 ++ sx ++ w := by
  constructor
  · rintro ⟨h, rfl, rfl⟩; revert b0; decide
  · rintro rfl; revert sx w; decide

/-- R102, R106, family 7: the opcode byte is `00ooo10w`. -/
theorem opcode_accImm_iff {b0 : Byte} {op : ArithOp} {w : BitVec 1} :
    classify b0 = .f7 ∧ arithOp (opField b0) = some op ∧ widthBit b0 = w ↔
      b0 = 0b00#2 ++ arithSelector op ++ 0b10#2 ++ w := by
  rw [arithOp_eq_some_iff]
  constructor
  · rintro ⟨h, hop, rfl⟩; rw [hop]; clear hop; revert b0; decide
  · rintro rfl; revert w; cases op <;> decide

/-- The operation field of a family-5 or family-7 byte always names an operation (R115). -/
theorem arithOp_opField_isSome {b0 : Byte} (h : classify b0 = .f5 ∨ classify b0 = .f7) :
    (arithOp (opField b0)).isSome = true := by
  revert b0; decide

/-- The family-8 bytes are the twenty of R241. -/
theorem jumpForm_isSome_iff {b0 : Byte} : (jumpForm b0).isSome = true ↔ classify b0 = .f8 := by
  revert b0; decide

/-- A jump is encoded as its byte of R241 and its displacement byte, any of which is well formed. -/
theorem encode_of_jumpForm {b0 : Byte} {form : Byte → Instr} (h : jumpForm b0 = some form) (disp8 : Byte) :
    encode (form disp8) = [b0, disp8] ∧ (form disp8).wf = true := by
  unfold jumpForm at h
  split at h
  all_goals cases h
  all_goals exact ⟨rfl, rfl⟩

/-- R115: the bytes outside the ten ranges of the opcode map are those the dispatcher does not recognize. -/
theorem classify_eq_unrecognized_iff {b0 : Byte} : classify b0 = .unrecognized ↔
    ¬ (b0 ≤ 0x05) ∧ ¬ (0x28 ≤ b0 ∧ b0 ≤ 0x2D) ∧ ¬ (0x38 ≤ b0 ∧ b0 ≤ 0x3D) ∧ ¬ (0x70 ≤ b0 ∧ b0 ≤ 0x7F) ∧
    ¬ (0x80 ≤ b0 ∧ b0 ≤ 0x83) ∧ ¬ (0x88 ≤ b0 ∧ b0 ≤ 0x8B) ∧ ¬ (0xA0 ≤ b0 ∧ b0 ≤ 0xA3) ∧ ¬ (0xB0 ≤ b0 ∧ b0 ≤ 0xBF) ∧
    ¬ (0xC6 ≤ b0 ∧ b0 ≤ 0xC7) ∧ ¬ (0xE0 ≤ b0 ∧ b0 ≤ 0xE3) := by
  revert b0; decide

/-- R115, R121: the bytes of family 6. -/
theorem classify_eq_f6_iff {b0 : Byte} : classify b0 = .f6 ↔ 0x80 ≤ b0 ∧ b0 ≤ 0x83 := by
  revert b0; decide

/-! ### What the decode does after each opcode byte (R193) -/

section

variable (p : Nat) (bs : List Byte)

theorem decodeAt_nil : decodeAt ⟨p, []⟩ = .fail (.outOfData p 1) := by simp [decodeAt]

theorem decodeAt_unrecognized {b0 : Byte} (h : classify b0 = .unrecognized) :
    decodeAt ⟨p, b0 :: bs⟩ = .fail (.unrecognizedOpcode p b0) := by simp [decodeAt, h]

theorem decodeAt_movRmReg (d w : BitVec 1) : decodeAt ⟨p, (0b100010#6 ++ d ++ w) :: bs⟩ =
    (readModRm ⟨p + 1, bs⟩).andThen fun x c => .ok (.movRmReg d w x.1 x.2) c := by
  obtain ⟨hfamily, hd, hw⟩ := opcode_movRmReg_iff.mpr (rfl : _ = 0b100010#6 ++ d ++ w)
  simp [decodeAt, hfamily, hd, hw]

theorem decodeAt_movRmImm (w : BitVec 1) : decodeAt ⟨p, (0b1100011#7 ++ w) :: bs⟩ =
    (readModRm ⟨p + 1, bs⟩).andThen fun x c => (readImm (immBytes w) c).andThen fun imm c =>
      .ok (.movRmImm w x.1 x.2 imm) c := by
  obtain ⟨hfamily, hw⟩ := opcode_movRmImm_iff.mpr (rfl : _ = 0b1100011#7 ++ w)
  simp [decodeAt, hfamily, hw]

theorem decodeAt_movRegImm (w : BitVec 1) (reg : BitVec 3) : decodeAt ⟨p, (0b1011#4 ++ w ++ reg) :: bs⟩ =
    (readImm (immBytes w) ⟨p + 1, bs⟩).andThen fun imm c => .ok (.movRegImm w reg imm) c := by
  obtain ⟨hfamily, hw, hreg⟩ := opcode_movRegImm_iff.mpr (rfl : _ = 0b1011#4 ++ w ++ reg)
  simp [decodeAt, hfamily, hw, hreg]

theorem decodeAt_movAccMem (w : BitVec 1) : decodeAt ⟨p, (0b1010000#7 ++ w) :: bs⟩ =
    (Cursor.fetchWord ⟨p + 1, bs⟩).andThen fun address c => .ok (.movAccMem w address) c := by
  obtain ⟨hfamily, hw⟩ := opcode_movAccMem_iff.mpr (rfl : _ = 0b1010000#7 ++ w)
  simp [decodeAt, hfamily, hw]

theorem decodeAt_movMemAcc (w : BitVec 1) : decodeAt ⟨p, (0b1010001#7 ++ w) :: bs⟩ =
    (Cursor.fetchWord ⟨p + 1, bs⟩).andThen fun address c => .ok (.movMemAcc w address) c := by
  obtain ⟨hfamily, hw⟩ := opcode_movMemAcc_iff.mpr (rfl : _ = 0b1010001#7 ++ w)
  simp [decodeAt, hfamily, hw]

theorem decodeAt_rmReg (op : ArithOp) (d w : BitVec 1) :
    decodeAt ⟨p, (0b00#2 ++ arithSelector op ++ 0b0#1 ++ d ++ w) :: bs⟩ =
      (readModRm ⟨p + 1, bs⟩).andThen fun x c => .ok (rmRegForm op d w x.1 x.2) c := by
  obtain ⟨hfamily, hop, hd, hw⟩ := opcode_rmReg_iff.mpr (rfl : _ = 0b00#2 ++ arithSelector op ++ 0b0#1 ++ d ++ w)
  simp [decodeAt, hfamily, hop, hd, hw]

theorem decodeAt_rmImm (op : ArithOp) (sx w : BitVec 1) (mod : BitVec 2) (rm : BitVec 3) :
    decodeAt ⟨p, (0b100000#6 ++ sx ++ w) :: modRmByte mod (arithSelector op) rm :: bs⟩ =
      (readRm mod rm ⟨p + 2, bs⟩).andThen fun m c => (readImm (immBytesSigned sx w) c).andThen fun imm c =>
        .ok (rmImmForm op sx w m imm) c := by
  obtain ⟨hfamily, hsx, hw⟩ := opcode_rmImm_iff.mpr (rfl : _ = 0b100000#6 ++ sx ++ w)
  simp [decodeAt, hfamily, hsx, hw, modeRegRm_modRmByte]

/-- R117: a selector that names no operation ends the decode before any later byte is read (D8). -/
theorem decodeAt_rmImm_unknown {b0 b1 : Byte} (h : classify b0 = .f6) (hop : arithOp (modeRegRm b1).2.1 = none) :
    decodeAt ⟨p, b0 :: b1 :: bs⟩ = .fail (.unrecognizedOpcode p b0) := by
  simp [decodeAt, h, hop]

/-- R307: a family-6 byte that is the last one lacks its ModRM byte. -/
theorem decodeAt_rmImm_last {b0 : Byte} (h : classify b0 = .f6) :
    decodeAt ⟨p, [b0]⟩ = .fail (.outOfData (p + 1) 1) := by
  simp [decodeAt, h]

theorem decodeAt_accImm (op : ArithOp) (w : BitVec 1) :
    decodeAt ⟨p, (0b00#2 ++ arithSelector op ++ 0b10#2 ++ w) :: bs⟩ =
      (readImm (immBytes w) ⟨p + 1, bs⟩).andThen fun imm c => .ok (accImmForm op w imm) c := by
  obtain ⟨hfamily, hop, hw⟩ := opcode_accImm_iff.mpr (rfl : _ = 0b00#2 ++ arithSelector op ++ 0b10#2 ++ w)
  simp [decodeAt, hfamily, hop, hw]

theorem decodeAt_jump {b0 : Byte} {form : Byte → Instr} (h : jumpForm b0 = some form) : decodeAt ⟨p, b0 :: bs⟩ =
    (Cursor.fetchByte ⟨p + 1, bs⟩).andThen fun disp8 c => .ok (form disp8) c := by
  have hfamily : classify b0 = .f8 := jumpForm_isSome_iff.mp (by simp [h])
  simp [decodeAt, h, hfamily]

end

/-! ### Decoding what the encoder writes (R193) -/

section

variable (p : Nat) (rest : List Byte)

theorem decodeAt_encodeRmReg (op : ArithOp) (d w : BitVec 1) (reg : BitVec 3) {m : RmField} (h : m.wf = true) :
    decodeAt ⟨p, encodeRmReg op d w reg m ++ rest⟩ =
      .ok (rmRegForm op d w reg m) ⟨p + (encodeRmReg op d w reg m).length, rest⟩ := by
  simp [encodeRmReg, decodeAt_rmReg, readModRm_encodeRm _ _ _ h]
  omega

theorem decodeAt_encodeRmImm (op : ArithOp) {sx w : BitVec 1} {m : RmField} {imm : ImmField} (h : m.wf = true)
    (himm : imm.sized (immBytesSigned sx w) = true) :
    decodeAt ⟨p, encodeRmImm op sx w m imm ++ rest⟩ =
      .ok (rmImmForm op sx w m imm) ⟨p + (encodeRmImm op sx w m imm).length, rest⟩ := by
  simp [encodeRmImm, encodeRm, decodeAt_rmImm, readRm_encodeDisp _ _ h, readImm_encodeImm _ _ himm]
  omega

theorem decodeAt_encodeAccImm (op : ArithOp) {w : BitVec 1} {imm : ImmField} (himm : imm.sized (immBytes w) = true) :
    decodeAt ⟨p, encodeAccImm op w imm ++ rest⟩ =
      .ok (accImmForm op w imm) ⟨p + (encodeAccImm op w imm).length, rest⟩ := by
  simp [encodeAccImm, decodeAt_accImm, readImm_encodeImm _ _ himm]
  omega

theorem decodeAt_jump_cons {b0 : Byte} {form : Byte → Instr} (h : jumpForm b0 = some form) (disp8 : Byte) :
    decodeAt ⟨p, b0 :: disp8 :: rest⟩ = .ok (form disp8) ⟨p + 2, rest⟩ := by
  simp [decodeAt_jump _ _ h]

end

/-- Settles O28: each family's opcode byte selects its reads, and each read gives back what its bytes encode. -/
theorem decodeOfEncode : Obligations.DecodeOfEncode := by
  intro i p rest h
  cases i with
  | movRmReg d w reg m =>
    simp [encode, decodeAt_movRmReg, readModRm_encodeRm _ _ _ h]
    omega
  | movRmImm w reg m imm =>
    obtain ⟨hm, himm⟩ := Bool.and_eq_true_iff.mp h
    simp [encode, decodeAt_movRmImm, readModRm_encodeRm _ _ _ hm, readImm_encodeImm _ _ himm]
    omega
  | movRegImm w reg imm =>
    simp [encode, decodeAt_movRegImm, readImm_encodeImm _ _ h]
    omega
  | movAccMem w address => simp [encode, wordBytes, decodeAt_movAccMem, wordOf_bytes]
  | movMemAcc w address => simp [encode, wordBytes, decodeAt_movMemAcc, wordOf_bytes]
  | addRmReg d w reg m => exact decodeAt_encodeRmReg p rest .add d w reg h
  | subRmReg d w reg m => exact decodeAt_encodeRmReg p rest .sub d w reg h
  | cmpRmReg d w reg m => exact decodeAt_encodeRmReg p rest .cmp d w reg h
  | addRmImm sx w m imm =>
    obtain ⟨hm, himm⟩ := Bool.and_eq_true_iff.mp h
    exact decodeAt_encodeRmImm p rest .add hm himm
  | subRmImm sx w m imm =>
    obtain ⟨hm, himm⟩ := Bool.and_eq_true_iff.mp h
    exact decodeAt_encodeRmImm p rest .sub hm himm
  | cmpRmImm sx w m imm =>
    obtain ⟨hm, himm⟩ := Bool.and_eq_true_iff.mp h
    exact decodeAt_encodeRmImm p rest .cmp hm himm
  | addAccImm w imm => exact decodeAt_encodeAccImm p rest .add h
  | subAccImm w imm => exact decodeAt_encodeAccImm p rest .sub h
  | cmpAccImm w imm => exact decodeAt_encodeAccImm p rest .cmp h
  | _ => exact decodeAt_jump_cons p rest rfl _

/-- Bytes that are the encoding of a well-formed instruction decode to it, with nothing left over. -/
theorem decode_eq_of_encode_eq {i : Instr} {bs : List Byte} (hwf : i.wf = true) (h : encode i = bs) :
    decode bs = .ok i ⟨bs.length, []⟩ := by
  subst h
  simpa [decode] using decodeOfEncode i 0 [] hwf

/-- Settles O11: each word is the encoding of its instruction. -/
theorem documentedWordsDecode : Obligations.DocumentedWordsDecode := by
  and_intros
  all_goals exact decode_eq_of_encode_eq (by decide) (by decide)

/-! ### Every decode reads an encoding (R118, R119) -/

/-- A read whose answer is only rearranged succeeds exactly when it does, at the same place. -/
theorem Read.andThen_ok_eq_ok {α β : Type} {r : Read α} {f : α → β} {v : β} {c : Cursor} :
    (r.andThen fun x c => .ok (f x) c) = .ok v c ↔ ∃ x, r = .ok x c ∧ f x = v := by
  cases r <;> simp [and_comm]

theorem encode_rmRegForm (op : ArithOp) (d w : BitVec 1) (reg : BitVec 3) (m : RmField) :
    encode (rmRegForm op d w reg m) = encodeRmReg op d w reg m := by cases op <;> rfl

theorem rmRegForm_wf (op : ArithOp) (d w : BitVec 1) (reg : BitVec 3) (m : RmField) :
    (rmRegForm op d w reg m).wf = m.wf := by cases op <;> rfl

theorem encode_rmImmForm (op : ArithOp) (sx w : BitVec 1) (m : RmField) (imm : ImmField) :
    encode (rmImmForm op sx w m imm) = encodeRmImm op sx w m imm := by cases op <;> rfl

theorem rmImmForm_wf (op : ArithOp) (sx w : BitVec 1) (m : RmField) (imm : ImmField) :
    (rmImmForm op sx w m imm).wf = (m.wf && imm.sized (immBytesSigned sx w)) := by cases op <;> rfl

theorem encode_accImmForm (op : ArithOp) (w : BitVec 1) (imm : ImmField) :
    encode (accImmForm op w imm) = encodeAccImm op w imm := by cases op <;> rfl

theorem accImmForm_wf (op : ArithOp) (w : BitVec 1) (imm : ImmField) :
    (accImmForm op w imm).wf = imm.sized (immBytes w) := by cases op <;> rfl

/-- `bs` are the encoding of the well-formed instruction `i` followed by `rest`. -/
def Spells (bs : List Byte) (i : Instr) (rest : List Byte) : Prop := bs = encode i ++ rest ∧ i.wf = true

section

variable {p : Nat} {bs : List Byte} {i : Instr} {c : Cursor}

theorem spells_movRmReg {d w : BitVec 1} (h : decodeAt ⟨p, (0b100010#6 ++ d ++ w) :: bs⟩ = .ok i c) :
    Spells ((0b100010#6 ++ d ++ w) :: bs) i c.rest := by
  rw [decodeAt_movRmReg] at h
  obtain ⟨x, hread, rfl⟩ := Read.andThen_ok_eq_ok.mp h
  obtain ⟨hwf, rfl⟩ := readModRm_eq_ok hread
  exact ⟨rfl, hwf⟩

theorem spells_movRmImm {w : BitVec 1} (h : decodeAt ⟨p, (0b1100011#7 ++ w) :: bs⟩ = .ok i c) :
    Spells ((0b1100011#7 ++ w) :: bs) i c.rest := by
  rw [decodeAt_movRmImm] at h
  obtain ⟨x, c1, hread, h⟩ := Read.andThen_eq_ok.mp h
  obtain ⟨imm, himm, rfl⟩ := Read.andThen_ok_eq_ok.mp h
  obtain ⟨hwf, rfl⟩ := readModRm_eq_ok hread
  obtain ⟨hsized, hrest, -⟩ := readImm_eq_ok (immBytes_cases w) himm
  exact ⟨by simp [encode, hrest], Bool.and_eq_true_iff.mpr ⟨hwf, hsized⟩⟩

theorem spells_movRegImm {w : BitVec 1} {reg : BitVec 3} (h : decodeAt ⟨p, (0b1011#4 ++ w ++ reg) :: bs⟩ = .ok i c) :
    Spells ((0b1011#4 ++ w ++ reg) :: bs) i c.rest := by
  rw [decodeAt_movRegImm] at h
  obtain ⟨imm, himm, rfl⟩ := Read.andThen_ok_eq_ok.mp h
  obtain ⟨hsized, rfl, -⟩ := readImm_eq_ok (immBytes_cases w) himm
  exact ⟨rfl, hsized⟩

theorem spells_movAccMem {w : BitVec 1} (h : decodeAt ⟨p, (0b1010000#7 ++ w) :: bs⟩ = .ok i c) :
    Spells ((0b1010000#7 ++ w) :: bs) i c.rest := by
  rw [decodeAt_movAccMem] at h
  obtain ⟨address, hread, rfl⟩ := Read.andThen_ok_eq_ok.mp h
  obtain ⟨rfl, -⟩ := fetchWord_eq_ok.mp hread
  exact ⟨rfl, rfl⟩

theorem spells_movMemAcc {w : BitVec 1} (h : decodeAt ⟨p, (0b1010001#7 ++ w) :: bs⟩ = .ok i c) :
    Spells ((0b1010001#7 ++ w) :: bs) i c.rest := by
  rw [decodeAt_movMemAcc] at h
  obtain ⟨address, hread, rfl⟩ := Read.andThen_ok_eq_ok.mp h
  obtain ⟨rfl, -⟩ := fetchWord_eq_ok.mp hread
  exact ⟨rfl, rfl⟩

theorem spells_rmReg {op : ArithOp} {d w : BitVec 1}
    (h : decodeAt ⟨p, (0b00#2 ++ arithSelector op ++ 0b0#1 ++ d ++ w) :: bs⟩ = .ok i c) :
    Spells ((0b00#2 ++ arithSelector op ++ 0b0#1 ++ d ++ w) :: bs) i c.rest := by
  rw [decodeAt_rmReg] at h
  obtain ⟨x, hread, rfl⟩ := Read.andThen_ok_eq_ok.mp h
  obtain ⟨hwf, rfl⟩ := readModRm_eq_ok hread
  exact ⟨encode_rmRegForm op d w x.1 x.2 ▸ rfl, (rmRegForm_wf op d w x.1 x.2).trans hwf⟩

theorem spells_rmImm {sx w : BitVec 1} (h : decodeAt ⟨p, (0b100000#6 ++ sx ++ w) :: bs⟩ = .ok i c) :
    Spells ((0b100000#6 ++ sx ++ w) :: bs) i c.rest := by
  obtain ⟨hfamily, -⟩ := opcode_rmImm_iff.mpr (rfl : _ = 0b100000#6 ++ sx ++ w)
  cases bs with
  | nil => simp [decodeAt_rmImm_last p hfamily] at h
  | cons b1 bs =>
    cases hop : arithOp (modeRegRm b1).2.1 with
    | none => simp [decodeAt_rmImm_unknown p bs hfamily hop] at h
    | some op =>
      have hb1 := modRmByte_modeRegRm b1
      rw [← arithOp_eq_some_iff.mp hop] at hb1
      rw [← hb1, decodeAt_rmImm] at h
      obtain ⟨m, c1, hread, h⟩ := Read.andThen_eq_ok.mp h
      obtain ⟨imm, himm, rfl⟩ := Read.andThen_ok_eq_ok.mp h
      obtain ⟨hwf, hmode, hrm, hdisp, -⟩ := readRm_eq_ok hread
      obtain ⟨hsized, hrest, -⟩ := readImm_eq_ok (immBytesSigned_cases sx w) himm
      have hbs : bs = encodeDisp m ++ (encodeImm imm ++ c.rest) := hrest ▸ hdisp
      refine ⟨?_, (rmImmForm_wf op sx w m imm).trans (Bool.and_eq_true_iff.mpr ⟨hwf, hsized⟩)⟩
      rw [encode_rmImmForm, encodeRmImm, encodeRm, hmode, hrm, hb1, hbs]
      simp

theorem spells_accImm {op : ArithOp} {w : BitVec 1}
    (h : decodeAt ⟨p, (0b00#2 ++ arithSelector op ++ 0b10#2 ++ w) :: bs⟩ = .ok i c) :
    Spells ((0b00#2 ++ arithSelector op ++ 0b10#2 ++ w) :: bs) i c.rest := by
  rw [decodeAt_accImm] at h
  obtain ⟨imm, himm, rfl⟩ := Read.andThen_ok_eq_ok.mp h
  obtain ⟨hsized, rfl, -⟩ := readImm_eq_ok (immBytes_cases w) himm
  exact ⟨encode_accImmForm op w imm ▸ rfl, (accImmForm_wf op w imm).trans hsized⟩

theorem spells_jump {b0 : Byte} {form : Byte → Instr} (hform : jumpForm b0 = some form)
    (h : decodeAt ⟨p, b0 :: bs⟩ = .ok i c) : Spells (b0 :: bs) i c.rest := by
  rw [decodeAt_jump _ _ hform] at h
  obtain ⟨disp8, hread, rfl⟩ := Read.andThen_ok_eq_ok.mp h
  obtain ⟨rfl, -⟩ := fetchByte_eq_ok.mp hread
  obtain ⟨hencode, hwf⟩ := encode_of_jumpForm hform disp8
  exact ⟨hencode ▸ rfl, hwf⟩

end

/-- Settles O29: the family of the opcode byte fixes its bits, and each read that succeeds has taken the encoding of what it
answers. -/
theorem encodeOfDecode : Obligations.EncodeOfDecode := by
  rintro i ⟨p, bs⟩ c h
  change Spells bs i c.rest
  cases bs with
  | nil => simp [decodeAt_nil] at h
  | cons b0 bs =>
    cases hfamily : classify b0 with
    | unrecognized => simp [decodeAt_unrecognized _ _ hfamily] at h
    | f1 =>
      rw [opcode_movRmReg_iff.mp ⟨hfamily, rfl, rfl⟩] at h ⊢
      exact spells_movRmReg h
    | f2 =>
      rw [opcode_movRmImm_iff.mp ⟨hfamily, rfl⟩] at h ⊢
      exact spells_movRmImm h
    | f3 =>
      rw [opcode_movRegImm_iff.mp ⟨hfamily, rfl, rfl⟩] at h ⊢
      exact spells_movRegImm h
    | f4Load =>
      rw [opcode_movAccMem_iff.mp ⟨hfamily, rfl⟩] at h ⊢
      exact spells_movAccMem h
    | f4Store =>
      rw [opcode_movMemAcc_iff.mp ⟨hfamily, rfl⟩] at h ⊢
      exact spells_movMemAcc h
    | f5 =>
      obtain ⟨op, hop⟩ := Option.isSome_iff_exists.mp (arithOp_opField_isSome (.inl hfamily))
      rw [opcode_rmReg_iff.mp ⟨hfamily, hop, rfl, rfl⟩] at h ⊢
      exact spells_rmReg h
    | f6 =>
      rw [opcode_rmImm_iff.mp ⟨hfamily, rfl, rfl⟩] at h ⊢
      exact spells_rmImm h
    | f7 =>
      obtain ⟨op, hop⟩ := Option.isSome_iff_exists.mp (arithOp_opField_isSome (.inr hfamily))
      rw [opcode_accImm_iff.mp ⟨hfamily, hop, rfl⟩] at h ⊢
      exact spells_accImm h
    | f8 =>
      obtain ⟨form, hform⟩ := Option.isSome_iff_exists.mp (jumpForm_isSome_iff.mpr hfamily)
      exact spells_jump hform h

/-- Settles O30: the bytes read are the encoding (O29), which is as long as R112 says and decodes back to where it ends
(O28). -/
theorem decodeConsumesItsLength : Obligations.DecodeConsumesItsLength := by
  rintro i ⟨p, bs⟩ ⟨p', rest⟩ h
  obtain ⟨hbs, hwf⟩ := encodeOfDecode i _ _ h
  change bs = encode i ++ rest at hbs
  have hlen : (encode i).length = instrLength i := Laws.EncodeLength.all i hwf
  rw [hbs, decodeOfEncode i p rest hwf, hlen] at h
  cases h
  rw [hbs]
  exact ⟨rfl, (List.drop_left' hlen).symm, hlen ▸ List.length_append, instrLength_bounds i⟩

/-! ### Steps at a byte that is not decoded (R116, R117, R275) -/

/-- At an offset that exists the cursor stands at its byte, with the bytes after it to come. -/
theorem cursorFrom_of_byteAt {s : State} {p : Nat} {b : Byte} (h : s.byteAt p = some b) :
    cursorFrom s p = ⟨p, b :: (cursorFrom s (p + 1)).rest⟩ := by
  have hlt : p < s.len := by
    by_contra hge
    simp [State.byteAt, hge] at h
  have hb : s.buf.read p = b := Option.some.inj ((byteAt_of_lt hlt).symm.trans h)
  have hrest := cursorFrom_rest_split (n := 1) hlt
  rw [memRead, memRead, hb] at hrest
  exact congrArg (Cursor.mk p) hrest

/-- At an offset that does not exist no byte is to come. -/
theorem cursorFrom_rest_of_byteAt_none {s : State} {p : Nat} (h : s.byteAt p = none) : (cursorFrom s p).rest = [] := by
  rw [← List.head?_eq_none_iff, List.head?_eq_getElem?, cursorFrom_rest_getElem?]
  exact h

/-- A decode that fails at the cursor's byte ends the session with its error (R305). -/
theorem step_of_decodeAt_fail {s : State} {b0 : Byte} {f : Fault} (hst : s.st = .scanning)
    (hb0 : s.byteAt s.cur = some b0) (h : decodeAt ⟨s.cur, b0 :: (cursorFrom s (s.cur + 1)).rest⟩ = .fail f) :
    step s = .next (afterError (reasonOf f) s) :=
  step_fail hst ((congrArg decodeAt (cursorFrom_of_byteAt hb0)).trans h)

/-- Settles O40: outside the ten ranges the dispatcher recognizes nothing, and the decode fails on its first byte. -/
theorem unrecognizedByteEndsTheSession : Obligations.UnrecognizedByteEndsTheSession := by
  intro s b0 hst hb0 h1 h2 h3 h4 h5 h6 h7 h8 h9 h10
  have hfamily := classify_eq_unrecognized_iff.mpr ⟨h1, h2, h3, h4, h5, h6, h7, h8, h9, h10⟩
  exact step_of_decodeAt_fail hst hb0 (decodeAt_unrecognized _ _ hfamily)

/-- R117, R148: the selectors that name no operation. -/
theorem arithOp_reg_eq_none_iff {b1 : Byte} : arithOp (modeRegRm b1).2.1 = none ↔ b1.toNat / 8 % 8 ∈ [1, 2, 3, 4, 6] := by
  revert b1; decide

/-- Settles O41: the selector is checked as soon as the ModRM byte is read, so what follows it plays no part (D8). -/
theorem unrecognizedSelectorEndsTheSession : Obligations.UnrecognizedSelectorEndsTheSession := by
  intro s b0 hst hb0 hlo hhi
  have hfamily := classify_eq_f6_iff.mpr ⟨hlo, hhi⟩
  constructor
  · intro b1 hb1 hreg
    refine step_of_decodeAt_fail (f := .unrecognizedOpcode s.cur b0) hst hb0 ?_
    rw [cursorFrom_of_byteAt hb1]
    exact decodeAt_rmImm_unknown _ _ hfamily (arithOp_reg_eq_none_iff.mpr hreg)
  · intro hnone
    refine step_of_decodeAt_fail (f := .outOfData (s.cur + 1) 1) hst hb0 ?_
    rw [cursorFrom_rest_of_byteAt_none hnone]
    exact decodeAt_rmImm_last _ hfamily

/-! ### Fields, sizes and the opcode map (R108, R110, R118) -/

/-- R108: `mod`, `reg` and `rm`, as numbers. -/
theorem modeRegRm_toNat (b : Byte) : (modeRegRm b).1.toNat = b.toNat / 64 ∧ (modeRegRm b).2.1.toNat = b.toNat / 8 % 8 ∧
    (modeRegRm b).2.2.toNat = b.toNat % 8 := by
  have hb := b.isLt
  simp only [modeRegRm, BitVec.extractLsb'_toNat, Nat.shiftRight_eq_div_pow]
  refine ⟨?_, trivial, ?_⟩ <;> omega

/-- Settles O6: a field of a byte is a quotient and a remainder of its value. -/
theorem modRmByteHasItsThreeFields : Obligations.ModRmByteHasItsThreeFields :=
  ⟨modeRegRm_toNat, by decide, by decide, by decide⟩

/-- Settles O7: each row of the table is one branch of `displacementBytes`. -/
theorem displacementSizeFollowsItsTable : Obligations.DisplacementSizeFollowsItsTable := by
  intro rm
  exact ⟨rfl, fun h => if_neg h, rfl, rfl, rfl⟩

/-- The patterns that match a byte are those of the one family the dispatcher selects, each once. -/
theorem opcodePatterns_filter (b0 : Byte) : (opcodePatterns.filter fun p => b0 &&& p.1 == p.2.1).map (fun p => p.2.2) =
      if classify b0 = .unrecognized then [] else [classify b0] := by
  revert b0; decide

/-- Settles O9: by the match of each byte with the patterns, and a count of the recognized ones. -/
theorem opcodePatternsSelectOneFamily : Obligations.OpcodePatternsSelectOneFamily :=
  ⟨opcodePatterns_filter, by decide⟩

end Sys2Proof.Machine

namespace Sys2Proof.Machine

/-! ### Tables and extractors (R141 to R148) -/

/-- Settles O4: each table is evaluated at its eight fields. -/
theorem lookupTablesHoldTheirEntries : Obligations.LookupTablesHoldTheirEntries :=
  ⟨by decide, by decide, by decide, by decide⟩

/-- A one-bit field of a byte is the bit at its position. -/
theorem getLsbD_extractLsb'_one (b : Byte) (k : Nat) : (b.extractLsb' k 1).getLsbD 0 = b.getLsbD k := by
  simp

/-- Settles O5: the one-bit extractors by their positions; family 3's register field and the operation field are cut where
`mode_reg_rm` cuts `rm` and `reg` (R144). -/
theorem fieldExtractorsTakeTheirBits : Obligations.FieldExtractorsTakeTheirBits := by
  intro b
  obtain ⟨-, hreg, hrm⟩ := modeRegRm_toNat b
  exact ⟨getLsbD_extractLsb'_one b 1, getLsbD_extractLsb'_one b 0, getLsbD_extractLsb'_one b 3,
    getLsbD_extractLsb'_one b 1, hrm, hreg⟩

end Sys2Proof.Machine

namespace Sys2Proof.Machine

/-! ### The addressing-mode resolver, one equation per case (R161 to R165) -/

section

variable (rm : BitVec 3) (w : BitVec 1) (c : Cursor)

theorem resolveRm_base {rm : BitVec 3} (h : rm ≠ 0b110) : resolveRm 0b00 rm w c = .ok (basedMem rm) c := by
  have hescape : ¬((0b00 : BitVec 2) = 0b00 ∧ rm = 0b110) := fun ⟨_, hrm⟩ => h hrm
  rw [resolveRm, readRm, if_neg (by decide), if_neg hescape, if_pos rfl]; rfl

theorem resolveRm_direct :
    resolveRm 0b00 0b110 w c = c.fetchWord.andThen fun address c => .ok (directMem address) c := by
  cases h : c.fetchWord <;> simp [resolveRm, readRm, h, rmOperand]

theorem resolveRm_disp8 :
    resolveRm 0b01 rm w c = c.fetchByte.andThen fun d8 c => .ok (displacedMem rm (sext16 d8)) c := by
  cases h : c.fetchByte <;> simp [resolveRm, readRm, h, rmOperand]

theorem resolveRm_disp16 :
    resolveRm 0b10 rm w c = c.fetchWord.andThen fun d16 c => .ok (displacedMem rm d16) c := by
  cases h : c.fetchWord <;> simp [resolveRm, readRm, h, rmOperand]

theorem resolveRm_register : resolveRm 0b11 rm w c = .ok (registerOperand w rm) c := rfl

end

/-- Settles O12: each case by its equation, on a cursor that holds the bytes the case reads. -/
theorem resolverFollowsItsFiveCases : Obligations.ResolverFollowsItsFiveCases := by
  intro rm w p d8 lo hi rest
  refine ⟨resolveRm_base w _, ?direct, ?disp8, ?disp16, resolveRm_register rm w _⟩
  case direct => rw [resolveRm_direct, fetchWord_cons]; rfl
  case disp8 => rw [resolveRm_disp8, fetchByte_cons]; rfl
  case disp16 => rw [resolveRm_disp16, fetchWord_cons]; rfl

/-! ### Reads of a fixed number of bytes (R75, R168) -/

/-- The read `r` at `c` takes exactly `n` bytes where they remain, and is short of data, having moved nothing, where they
do not (R75). -/
def TakesExactly {α : Type} (n : Nat) (c : Cursor) (r : Read α) : Prop :=
  (n ≤ c.remaining → ∃ v, r = .ok v ⟨c.pos + n, c.rest.drop n⟩) ∧
  (c.remaining < n → r = .fail (.outOfData c.pos n))

theorem takesExactly_ok {α : Type} (v : α) (c : Cursor) : TakesExactly 0 c (.ok v c) :=
  ⟨fun _ => ⟨v, rfl⟩, fun h => absurd h (Nat.not_lt_zero _)⟩

theorem takesExactly_fetch (c : Cursor) (n : Nat) : TakesExactly n c (c.fetch n) :=
  ⟨fun h => ⟨_, if_pos h⟩, fun h => if_neg h.not_ge⟩

/-- A read whose answer is only rearranged takes the bytes it took. -/
theorem TakesExactly.andThen_ok {α β : Type} {n : Nat} {c : Cursor} {r : Read α} (h : TakesExactly n c r) (f : α → β) :
    TakesExactly n c (r.andThen fun v c => .ok (f v) c) := by
  obtain ⟨hfits, hshort⟩ := h
  constructor
  · intro hn
    obtain ⟨v, rfl⟩ := hfits hn
    exact ⟨f v, rfl⟩
  · intro hn
    rw [hshort hn]; rfl

theorem takesExactly_fetchByte (c : Cursor) : TakesExactly 1 c c.fetchByte := (takesExactly_fetch c 1).andThen_ok _

theorem takesExactly_fetchWord (c : Cursor) : TakesExactly 2 c c.fetchWord := (takesExactly_fetch c 2).andThen_ok _

/-- R168: the resolver takes `D(mod, rm)` bytes, case by case. -/
theorem takesExactly_resolveRm (mod : BitVec 2) (rm : BitVec 3) (w : BitVec 1) (c : Cursor) :
    TakesExactly (displacementBytes mod rm) c (resolveRm mod rm w c) := by
  have hmod : mod = 0b00 ∨ mod = 0b01 ∨ mod = 0b10 ∨ mod = 0b11 := by revert mod; decide
  obtain ⟨hsizeDirect, hsizeBase, hsize8, hsize16, hsizeReg⟩ := displacementSizeFollowsItsTable rm
  rcases hmod with rfl | rfl | rfl | rfl
  · by_cases hrm : rm = 0b110
    · subst hrm
      rw [hsizeDirect, resolveRm_direct]
      exact (takesExactly_fetchWord c).andThen_ok _
    · rw [hsizeBase hrm, resolveRm_base w c hrm]
      exact takesExactly_ok _ c
  · rw [hsize8, resolveRm_disp8]
    exact (takesExactly_fetchByte c).andThen_ok _
  · rw [hsize16, resolveRm_disp16]
    exact (takesExactly_fetchWord c).andThen_ok _
  · rw [hsizeReg, resolveRm_register]
    exact takesExactly_ok _ c

/-- Settles O13: both clauses are what taking exactly `D(mod, rm)` bytes says. -/
theorem resolverConsumesItsDisplacement : Obligations.ResolverConsumesItsDisplacement := takesExactly_resolveRm

/-! ### Displacements and addresses as numbers (R17, R171) -/

theorem sext16_toInt (b : Byte) : (sext16 b).toInt = b.toInt := BitVec.toInt_signExtend_of_le (by decide)

theorem wordOf_toInt (hi lo : Byte) : (wordOf hi lo).toInt = 256 * hi.toInt + lo.toNat := BitVec.toInt_append

theorem wordOf_toNat (hi lo : Byte) : (wordOf hi lo).toNat = 256 * hi.toNat + lo.toNat := by
  rw [wordOf, BitVec.toNat_append, ← Nat.shiftLeft_add_eq_or_of_lt lo.isLt, Nat.shiftLeft_eq, Nat.mul_comm]

/-- Settles O14: the operands are those of O12, and the corner values are the general ones, evaluated. -/
theorem displacementsKeepTheirSignedValue : Obligations.DisplacementsKeepTheirSignedValue := by
  intro rm w p rest disp8 disp16 direct
  have hdisp8 (d8 : Byte) : disp8 d8 d8.toInt := by
    obtain ⟨-, -, hresolve, -⟩ := resolverFollowsItsFiveCases rm w p d8 0 0 rest
    exact ⟨_, hresolve, rfl, sext16_toInt d8⟩
  have hdisp16 (lo hi : Byte) : disp16 lo hi (256 * hi.toInt + lo.toNat) := by
    obtain ⟨-, -, -, hresolve, -⟩ := resolverFollowsItsFiveCases rm w p 0 lo hi rest
    exact ⟨_, hresolve, rfl, wordOf_toInt hi lo⟩
  have hdirect (lo hi : Byte) : direct lo hi (256 * hi.toNat + lo.toNat) := by
    obtain ⟨-, hresolve, -⟩ := resolverFollowsItsFiveCases rm w p 0 lo hi rest
    exact ⟨_, hresolve, rfl, wordOf_toNat hi lo⟩
  exact ⟨hdisp8, hdisp16, hdirect, hdisp8 0xFF, hdisp8 0x80, hdisp8 0x7F, hdisp8 0x00,
    hdisp16 0x00 0x80, hdisp16 0xFF 0xFF, hdirect 0x00 0x80, hdirect 0xFF 0xFF⟩

end Sys2Proof.Machine

namespace Sys2Proof.Machine

/-! ### A decode reads nothing after its instruction (R192) -/

/-- Settles O31: the bytes before the ones left over are the encoding (O29), which decodes alike before any bytes (O28). -/
theorem decodeReadsNoLaterByte : Obligations.DecodeReadsNoLaterByte := by
  intro i a p bs rest other h
  obtain ⟨hspells, hwf⟩ := encodeOfDecode i _ _ h
  obtain rfl : bs = encode i := List.append_cancel_right hspells
  rw [decodeOfEncode i a rest hwf] at h
  cases h
  exact decodeOfEncode i a other hwf

/-! ### Immediates (R187) -/

theorem readImm_one (c : Cursor) : readImm 1 c = c.fetchByte.andThen fun b c => .ok (.imm8 b) c := rfl

theorem readImm_two (c : Cursor) : readImm 2 c = c.fetchWord.andThen fun v c => .ok (.imm16 v) c := rfl

/-- Settles O15: each size is one fetch, which holds its bytes or is short of them. -/
theorem immediatesAreReadRaw : Obligations.ImmediatesAreReadRaw := by
  intro p b lo hi rest
  refine ⟨⟨.imm8 b, ?byte, rfl⟩, ⟨.imm16 (wordOf hi lo), ?word, rfl⟩, ?noByte, ?noWord, ?halfWord⟩
  case byte => rw [readImm_one, fetchByte_cons]; rfl
  case word => rw [readImm_two, fetchWord_cons]; rfl
  case noByte => rw [readImm_one, fetchByte_nil]; rfl
  case noWord => rw [readImm_two, fetchWord_nil]; rfl
  case halfWord => rw [readImm_two, fetchWord_single]; rfl

/-! ### The direction bit (R186) -/

theorem orderByDirection_zero (rm reg : OperandKind) : orderByDirection 0 rm reg = (rm, reg) := rfl

theorem orderByDirection_one (rm reg : OperandKind) : orderByDirection 1 rm reg = (reg, rm) := rfl

/-- Where its bytes are there, an instruction of family 1 or 5 commits a record with the operands in the order of its
direction bit. -/
theorem emitRmReg_fits {op : OperationKind} {d w : BitVec 1} {reg : BitVec 3} {m : RmField} {s : State}
    (h : s.cur + rmRegLength m ≤ s.len) :
    ∃ r : Instruction, emitRmReg op d w reg m s = .next (commit r (s.cur + rmRegLength m) s) ∧
      r.operands = orderByDirection d (rmOperand w m) (registerOperand w reg) :=
  ⟨_, emit_fits h, rfl⟩

/-- The forms between a register or memory operand and a register differ only in the operation they record (R200, R220). -/
theorem exec_eq_emitRmReg {d w : BitVec 1} {reg : BitVec 3} {m : RmField} {i : Instr}
    (hi : i ∈ [Instr.movRmReg d w reg m, .addRmReg d w reg m, .subRmReg d w reg m, .cmpRmReg d w reg m]) (s : State) :
    ∃ op, exec i s = emitRmReg op d w reg m s := by
  simp only [List.mem_cons, List.not_mem_nil, or_false] at hi
  rcases hi with rfl | rfl | rfl | rfl
  · exact ⟨.mov, rfl⟩
  · exact ⟨.add, rfl⟩
  · exact ⟨.sub, rfl⟩
  · exact ⟨.cmp, rfl⟩

/-- Settles O23: all four forms commit the operands that `orderByDirection` orders. -/
theorem directionBitOrdersTheOperands : Obligations.DirectionBitOrdersTheOperands := by
  intro d w reg m s hfit i hi
  obtain ⟨op, hexec⟩ := exec_eq_emitRmReg hi s
  obtain ⟨r, hcommit, hoperands⟩ := emitRmReg_fits (op := op) (d := d) (w := w) (reg := reg) hfit
  refine ⟨_, r, hexec.trans hcommit, commit_out r _ s, ?_, ?_⟩
  · rintro rfl
    exact hoperands.trans (orderByDirection_zero _ _)
  · rintro rfl
    exact hoperands.trans (orderByDirection_one _ _)

end Sys2Proof.Machine

namespace Sys2Proof.Machine

/-! ### The records of the MOV forms (R200 to R204) -/

/-- Committed past its own raw bytes, a record gives the state that the statements write out (R272, R273). -/
theorem commit_eq_afterRecord (r : Instruction) (s : State) : commit r (s.cur + r.rawBytes.length) s = afterRecord r s := rfl

/-- Where the bytes are there, `emit` answers the state after its record, field by field. -/
theorem emit_eq_afterRecord {n : Nat} {op : OperationKind} {ops : OperandKind × OperandKind} {x : Scratch} {s : State}
    (h : s.cur + n ≤ s.len) :
    emit n op ops x s = .next (afterRecord (record s.cur (memRead s.buf s.cur n) op ops x) s) := by
  have hlen : (record s.cur (memRead s.buf s.cur n) op ops x).rawBytes.length = n := memRead_length _ _ _
  rw [emit_fits h, ← commit_eq_afterRecord, hlen]

theorem exec_movRmReg (d w : BitVec 1) (reg : BitVec 3) (m : RmField) (s : State) :
    exec (.movRmReg d w reg m) s = emit (rmRegLength m) .mov
      (orderByDirection d (rmOperand w m) (registerOperand w reg)) (scratchRmReg d w reg m) s := rfl

theorem exec_movRmImm (w : BitVec 1) (reg : BitVec 3) (m : RmField) (imm : ImmField) (s : State) :
    exec (.movRmImm w reg m imm) s =
      emit (movRmImmLength w m) .mov (rmOperand w m, immOperand imm) (scratchRmImm w reg m) s := rfl

theorem exec_movRegImm (w : BitVec 1) (reg : BitVec 3) (imm : ImmField) (s : State) :
    exec (.movRegImm w reg imm) s =
      emit (shortImmLength w) .mov (registerOperand w reg, immOperand imm) (scratchShort w reg) s := rfl

theorem exec_movAccMem (w : BitVec 1) (address : Word) (s : State) :
    exec (.movAccMem w address) s = emit accMemLength .mov (accumulator w, directMem address) (scratchAcc w) s := rfl

theorem exec_movMemAcc (w : BitVec 1) (address : Word) (s : State) :
    exec (.movMemAcc w address) s = emit accMemLength .mov (directMem address, accumulator w) (scratchAcc w) s := rfl

/-- R203, R228: register field 000 names al or ax. -/
theorem accumulator_eq (w : BitVec 1) : accumulator w = .register (if w = 0 then .al else .ax) := rfl

/-- Settles O16: `orderByDirection` is the statement's order of the operands. -/
theorem movRegisterMemoryRecords : Obligations.MovRegisterMemoryRecords := by
  intro d w reg m s hfit
  rw [exec_movRmReg]
  exact emit_eq_afterRecord hfit

/-- Settles O17: the `reg` field reaches the scratch as the instruction carries it. -/
theorem movImmediateRecords : Obligations.MovImmediateRecords := by
  intro w reg m imm s hfit
  rw [exec_movRmImm]
  exact emit_eq_afterRecord hfit

/-- Settles O18: `scratchShort` sets the width and register bits alone, so `mod` and `rm` are 0. -/
theorem movShortImmediateRecords : Obligations.MovShortImmediateRecords := by
  intro w reg imm s hfit
  rw [exec_movRegImm]
  exact emit_eq_afterRecord hfit

/-- Settles O19: both forms emit the accumulator and the direct address, in their own order. -/
theorem movAccumulatorRecords : Obligations.MovAccumulatorRecords := by
  intro w address s hfit
  refine ⟨?load, ?store⟩
  case load =>
    rw [exec_movAccMem, accumulator_eq]
    exact emit_eq_afterRecord hfit
  case store =>
    rw [exec_movMemAcc, accumulator_eq]
    exact emit_eq_afterRecord hfit

end Sys2Proof.Machine

namespace Sys2Proof.Machine

/-! ### The records of the ADD, SUB and CMP forms (R220 to R231) -/

section

variable (d sx w : BitVec 1) (reg : BitVec 3) (m : RmField) (imm : ImmField) (s : State)

theorem exec_addRmReg : exec (.addRmReg d w reg m) s = emitRmReg .add d w reg m s := rfl

theorem exec_subRmReg : exec (.subRmReg d w reg m) s = emitRmReg .sub d w reg m s := rfl

theorem exec_cmpRmReg : exec (.cmpRmReg d w reg m) s = emitRmReg .cmp d w reg m s := rfl

theorem exec_addRmImm : exec (.addRmImm sx w m imm) s = emitRmImm .add sx w m imm s := rfl

theorem exec_subRmImm : exec (.subRmImm sx w m imm) s = emitRmImm .sub sx w m imm s := rfl

theorem exec_cmpRmImm : exec (.cmpRmImm sx w m imm) s = emitRmImm .cmp sx w m imm s := rfl

theorem exec_addAccImm : exec (.addAccImm w imm) s = emitAccImm .add w imm s := rfl

theorem exec_subAccImm : exec (.subAccImm w imm) s = emitAccImm .sub w imm s := rfl

theorem exec_cmpAccImm : exec (.cmpAccImm w imm) s = emitAccImm .cmp w imm s := rfl

/-- R112, family 6: only the immediate's size depends on `(s, w)`. -/
theorem arithRmImmLength_eq : arithRmImmLength sx w m = (if sx = 0 ∧ w = 1 then 4 else 3) + rmBytes m :=
  (ite_add _ _ _ _).symm

end

/-- Settles O20: whatever the operation, `emitRmReg` answers the state after its record. -/
theorem arithmeticRegisterMemoryRecords : Obligations.ArithmeticRegisterMemoryRecords := by
  intro d w reg m s hfit r
  have hemit (op : OperationKind) : emitRmReg op d w reg m s = .next (afterRecord (r op) s) := emit_eq_afterRecord hfit
  rw [exec_addRmReg, exec_subRmReg, exec_cmpRmReg]
  exact ⟨hemit .add, hemit .sub, hemit .cmp⟩

/-- Settles O21: one operation gives the record both its name (`arithKind`) and its `reg` field (`arithSelector`). -/
theorem arithmeticImmediateRecords : Obligations.ArithmeticImmediateRecords := by
  intro sx w m imm s n hn hfit r
  obtain rfl : n = arithRmImmLength sx w m := hn.trans (arithRmImmLength_eq sx w m).symm
  have hemit (op : ArithOp) : emitRmImm op sx w m imm s = .next (afterRecord (r (arithKind op) (arithSelector op)) s) :=
    emit_eq_afterRecord hfit
  rw [exec_addRmImm, exec_subRmImm, exec_cmpRmImm]
  exact ⟨hemit .add, hemit .sub, hemit .cmp⟩

/-- Settles O22: whatever the operation, `emitAccImm` records the accumulator first and the width bit alone. -/
theorem arithmeticAccumulatorRecords : Obligations.ArithmeticAccumulatorRecords := by
  intro w imm s hfit r
  have hemit (op : OperationKind) : emitAccImm op w imm s = .next (afterRecord (r op) s) := emit_eq_afterRecord hfit
  rw [exec_addAccImm, exec_subAccImm, exec_cmpAccImm]
  exact ⟨hemit .add, hemit .sub, hemit .cmp⟩

end Sys2Proof.Machine

namespace Sys2Proof.Machine

/-! ### The short jumps and loops (R240 to R262) -/

/-- R240: a jump byte that is the last one lacks its displacement byte. -/
theorem decodeAt_jump_last (p : Nat) {b0 : Byte} {form : Byte → Instr} (h : jumpForm b0 = some form) :
    decodeAt ⟨p, [b0]⟩ = .fail (.outOfData (p + 1) 1) := by
  rw [decodeAt_jump _ _ h, fetchByte_nil, Read.fail_andThen]

/-- Settles O10: mapped over the list, both sides agree row by row, so each pair is a row of `jumpForm` (R241). -/
theorem jumpBytesDecodeToTheirOperations : Obligations.JumpBytesDecodeToTheirOperations := by
  intro p hp a disp8 rest
  have hform : jumpForm p.1 = some p.2 :=
    (List.map_inj_left (f := fun q => jumpForm q.1) (g := fun q => some q.2)).mp rfl p hp
  exact ⟨decodeAt_jump_cons a rest hform disp8, decodeAt_jump_last a hform⟩

/-- R240: the body all twenty meanings share answers the state after the record of one immediate byte. -/
theorem emitJump_eq_afterRecord {op : OperationKind} {disp8 : Byte} {s : State} (h : s.cur + jumpLength ≤ s.len) :
    emitJump op disp8 s = .next (afterRecord
      (record s.cur (memRead s.buf s.cur jumpLength) op (jumpOperand disp8, .none) scratchNone) s) :=
  emit_eq_afterRecord h

/-- Settles O24: mapped over the list, both sides agree row by row, so each form is `emitJump` of its paired operation. -/
theorem shortJumpRecords : Obligations.ShortJumpRecords := by
  intro p hp disp8 s hfit
  have hexec : exec (p.1 disp8) s = emitJump p.2 disp8 s :=
    (List.map_inj_left (f := fun q => exec (q.1 disp8) s) (g := fun q => emitJump q.2 disp8 s)).mp rfl p hp
  exact hexec.trans (emitJump_eq_afterRecord hfit)

end Sys2Proof.Machine

namespace Sys2Proof.Machine

/-! ### The decode simulates the spec's pseudocode, read by read (R75, R80, R167, R187, R193) -/

/-- A read of the model from a cursor over the buffer and a computation of the pseudocode end alike: both with the same
error, or with values `v` and `b` that `R` relates at the offset `p` where the read stopped. -/
inductive Simulates {α β : Type} (s : State) (R : α → Nat → β → Prop) : Read α → Except Fault β → Prop where
  | ok {v : α} {p : Nat} {b : β} (h : R v p b) : Simulates s R (.ok v (cursorFrom s p)) (.ok b)
  | fail (f : Fault) : Simulates s R (.fail f) (.error f)

/-- The pseudocode answers the offset `p` beside what the model's value stands for, as `f` says. -/
def ReadsAs {α β : Type} (f : α → β) (v : α) (p : Nat) (b : β × Nat) : Prop := b = (f v, p)

/-- What `ResolveRM` answers for the addressing case `m`, which `mod` and `rm` spell: the record's scratch holds the fields as
read (R193), the meaning of an instruction those that `m` gives back. -/
def ResolvesAs (mod : BitVec 2) (rm : BitVec 3) (w : BitVec 1) (m : RmField) (p : Nat) (b : OperandKind × Nat) : Prop :=
  ReadsAs (rmOperand w) m p b ∧ modeOf m = mod ∧ rmOf m = rm

/-- What the arms of `DecodeOne` answer for the instruction `i`: the parts of the record that `i` emits. -/
def EmitsAs (i : Instr) (p : Nat) (b : OperationKind × (OperandKind × OperandKind) × Scratch × Nat) : Prop :=
  ∃ op ops x, b = (op, ops, x, p) ∧ ∀ s : State, exec i s = emit (instrLength i) op ops x s

/-- What `DecodeOne(a)` answers for the instruction `i`: the record that `i` emits, with the buffer's own bytes. -/
def DecodesAs (s : State) (a : Nat) (i : Instr) (p : Nat) (b : Instruction × Nat) : Prop :=
  ∃ op ops x, b = (record a (memRead s.buf a (p - a)) op ops x, p) ∧ ∀ t : State, exec i t = emit (instrLength i) op ops x t

section

variable {α β γ δ : Type} {s : State} {R : α → Nat → β → Prop} {Q : γ → Nat → δ → Prop} {r : Read α} {e : Except Fault β}

/-- One read after another simulates the pseudocode's sequence when each does. -/
theorem Simulates.bind {k : α → Cursor → Read γ} {l : β → Except Fault δ} (h : Simulates s R r e)
    (hk : ∀ v p b, R v p b → Simulates s Q (k v (cursorFrom s p)) (l b)) : Simulates s Q (r.andThen k) (e >>= l) := by
  cases h with
  | ok h => exact hk _ _ _ h
  | fail f => exact .fail f

/-- As `bind`, where the pseudocode's answer is known outright. -/
theorem Simulates.bind_readsAs {f : α → β} {e : Except Fault (β × Nat)} {k : α → Cursor → Read γ}
    {l : β × Nat → Except Fault δ} (h : Simulates s (ReadsAs f) r e)
    (hk : ∀ v p, Simulates s Q (k v (cursorFrom s p)) (l (f v, p))) : Simulates s Q (r.andThen k) (e >>= l) :=
  h.bind fun v p _ hb => hb ▸ hk v p

/-- The pseudocode may rearrange its answer. -/
theorem Simulates.map {S : α → Nat → δ → Prop} {f : β → δ} (h : Simulates s R r e) (hf : ∀ v p b, R v p b → S v p (f b)) :
    Simulates s S r (e >>= fun b => pure (f b)) := by
  cases h with
  | ok h => exact .ok (hf _ _ _ h)
  | fail f => exact .fail f

/-- Where the pseudocode answers, the model's read does. -/
theorem Simulates.eq_ok {b : β} (h : Simulates s R r (.ok b)) : ∃ v p, r = .ok v (cursorFrom s p) ∧ R v p b := by
  cases h with
  | ok h => exact ⟨_, _, rfl, h⟩

/-- Where the pseudocode fails, the model's read fails with the same error. -/
theorem Simulates.eq_fail {f : Fault} (h : Simulates s R r (.error f)) : r = .fail f := by
  cases h with
  | fail f => rfl

end

section

variable (s : State) (p : Nat)

/-- R75: `Fetch(n)`; both check first that the bytes are there. -/
theorem fetch_simulates {n : Nat} (hn : 0 < n) :
    Simulates s (ReadsAs id) ((cursorFrom s p).fetch n) (pseudoFetch s n p) := by
  rcases Nat.lt_or_ge s.len (p + n) with hshort | hfits
  · rw [cursorFrom_fetch_short hn hshort, pseudoFetch, if_pos hshort]
    exact .fail _
  · rw [cursorFrom_fetch_fits hfits, pseudoFetch, if_neg hfits.not_gt]
    exact .ok rfl

theorem fetchByte_simulates : Simulates s (ReadsAs id) (cursorFrom s p).fetchByte (pseudoFetchByte s p) :=
  (fetch_simulates s p Nat.one_pos).bind_readsAs fun _ _ => .ok rfl

theorem fetchWord_simulates : Simulates s (ReadsAs id) (cursorFrom s p).fetchWord (pseudoFetchWord s p) :=
  (fetch_simulates s p Nat.two_pos).bind_readsAs fun _ _ => .ok rfl

/-- R187: `ReadImm(n)`. -/
theorem readImm_simulates (n : Nat) :
    Simulates s (ReadsAs immOperand) (readImm n (cursorFrom s p)) (pseudoReadImm s n p) := by
  unfold readImm pseudoReadImm
  split
  · exact (fetchByte_simulates s p).bind_readsAs fun _ _ => .ok rfl
  · exact (fetchWord_simulates s p).bind_readsAs fun _ _ => .ok rfl

/-- R167: `ResolveRM(mod, rm, w)`, case by case. -/
theorem readRm_simulates (mod : BitVec 2) (rm : BitVec 3) (w : BitVec 1) :
    Simulates s (ResolvesAs mod rm w) (readRm mod rm (cursorFrom s p)) (pseudoResolveRm s mod rm w p) := by
  have hmod : mod = 0b00 ∨ mod = 0b01 ∨ mod = 0b10 ∨ mod = 0b11 := by revert mod; decide
  rcases hmod with rfl | rfl | rfl | rfl
  · by_cases hrm : rm = 0b110
    · subst hrm
      exact (fetchWord_simulates s p).bind_readsAs fun _ _ => .ok ⟨rfl, rfl, rfl⟩
    · have hescape : ¬((0b00 : BitVec 2) = 0b00 ∧ rm = 0b110) := fun ⟨_, h⟩ => hrm h
      have hmemory : ¬(0b00 : BitVec 2) = 0b11 := by decide
      rw [readRm, if_neg hmemory, if_neg hescape, pseudoResolveRm, if_neg hmemory, if_neg hescape]
      exact .ok ⟨rfl, rfl, rfl⟩
  · exact (fetchByte_simulates s p).bind_readsAs fun _ _ => .ok ⟨rfl, rfl, rfl⟩
  · exact (fetchWord_simulates s p).bind_readsAs fun _ _ => .ok ⟨rfl, rfl, rfl⟩
  · exact .ok ⟨rfl, rfl, rfl⟩

end

/-- The ModRM byte and its displacement are read one after the other, whatever is read next. -/
theorem readModRm_andThen {α : Type} (c : Cursor) (k : BitVec 3 × RmField → Cursor → Read α) :
    (readModRm c).andThen k = c.fetchByte.andThen fun b1 c =>
      (readRm (modeRegRm b1).1 (modeRegRm b1).2.2 c).andThen fun m c => k ((modeRegRm b1).2.1, m) c := by
  unfold readModRm
  cases c.fetchByte with
  | fail f => rfl
  | ok b1 c =>
    simp only [Read.ok_andThen]
    cases readRm (modeRegRm b1).1 (modeRegRm b1).2.2 c <;> rfl

theorem exec_rmRegForm (op : ArithOp) (d w : BitVec 1) (reg : BitVec 3) (m : RmField) (s : State) :
    exec (rmRegForm op d w reg m) s = emit (instrLength (rmRegForm op d w reg m)) (arithKind op)
      (orderByDirection d (rmOperand w m) (registerOperand w reg)) (scratchRmReg d w reg m) s := by cases op <;> rfl

theorem exec_rmImmForm (op : ArithOp) (sx w : BitVec 1) (m : RmField) (imm : ImmField) (s : State) :
    exec (rmImmForm op sx w m imm) s = emit (instrLength (rmImmForm op sx w m imm)) (arithKind op)
      (rmOperand w m, immOperand imm) (scratchSigned sx w op m) s := by cases op <;> rfl

theorem exec_accImmForm (op : ArithOp) (w : BitVec 1) (imm : ImmField) (s : State) :
    exec (accImmForm op w imm) s = emit (instrLength (accImmForm op w imm)) (arithKind op)
      (accumulator w, immOperand imm) (scratchAcc w) s := by cases op <;> rfl

/-- R241: `JumpKind` names the operation that the byte's instruction records. -/
theorem exec_jumpForm {b0 : Byte} {form : Byte → Instr} (h : jumpForm b0 = some form) (disp8 : Byte) (s : State) :
    exec (form disp8) s =
      emit (instrLength (form disp8)) (jumpKind b0) (jumpOperand disp8, .none) scratchNone s := by
  unfold jumpForm at h
  split at h
  all_goals cases h
  all_goals rfl

theorem arithName_eq {f : BitVec 3} {op : ArithOp} (h : arithOp f = some op) : arithName f = arithKind op := by
  simp [arithName, h]

/-- R193: what `decodeAt` reads from the buffer `DecodeOne` reads too, in the same order, and the record it answers is the
one that the decoded instruction emits. -/
theorem decodeAt_simulates (s : State) (a : Nat) : Simulates s (DecodesAs s a)
    (decodeAt (cursorFrom s a)) (pseudoDecodeOne s a) := by
  refine (fetchByte_simulates s a).bind_readsAs fun b0 p => Simulates.map (R := EmitsAs) ?_ ?record
  case record =>
    rintro i p _ ⟨op, ops, x, rfl, hexec⟩
    exact ⟨op, ops, x, rfl, hexec⟩
  simp only [id, pseudoBody, show (cursorFrom s a).pos = a from rfl]
  cases hfamily : classify b0 with
  | unrecognized => exact .fail _
  | f1 =>
    simp only [readModRm_andThen]
    refine (fetchByte_simulates s p).bind_readsAs fun b1 p => (readRm_simulates s p _ _ _).bind ?_
    rintro m p _ ⟨rfl, hmode, hrm⟩
    exact .ok ⟨_, _, _, rfl, fun _ => hmode ▸ hrm ▸ rfl⟩
  | f2 =>
    simp only [readModRm_andThen]
    refine (fetchByte_simulates s p).bind_readsAs fun b1 p => (readRm_simulates s p _ _ _).bind ?_
    rintro m p _ ⟨rfl, hmode, hrm⟩
    refine (readImm_simulates s p _).bind_readsAs fun imm p => ?_
    exact .ok ⟨_, _, _, rfl, fun _ => hmode ▸ hrm ▸ rfl⟩
  | f3 => exact (readImm_simulates s p _).bind_readsAs fun imm p => .ok ⟨_, _, _, rfl, fun _ => rfl⟩
  | f4Load => exact (fetchWord_simulates s p).bind_readsAs fun address p => .ok ⟨_, _, _, rfl, fun _ => rfl⟩
  | f4Store => exact (fetchWord_simulates s p).bind_readsAs fun address p => .ok ⟨_, _, _, rfl, fun _ => rfl⟩
  | f5 =>
    obtain ⟨op, hop⟩ := Option.isSome_iff_exists.mp (arithOp_opField_isSome (.inl hfamily))
    simp only [hop, arithName_eq hop, readModRm_andThen]
    refine (fetchByte_simulates s p).bind_readsAs fun b1 p => (readRm_simulates s p _ _ _).bind ?_
    rintro m p _ ⟨rfl, hmode, hrm⟩
    exact .ok ⟨_, _, _, rfl, fun t => hmode ▸ hrm ▸ exec_rmRegForm op _ _ _ m t⟩
  | f6 =>
    refine (fetchByte_simulates s p).bind_readsAs fun b1 p => ?_
    cases hop : arithOp (modeRegRm b1).2.1 with
    | none =>
      simp only [id, hop]
      exact .fail _
    | some op =>
      have hselector := arithOp_eq_some_iff.mp hop
      simp only [id, hop, arithName_eq hop]
      refine (readRm_simulates s p _ _ _).bind ?_
      rintro m p _ ⟨rfl, hmode, hrm⟩
      refine (readImm_simulates s p _).bind_readsAs fun imm p => ?_
      exact .ok ⟨_, _, _, rfl, fun t => hmode ▸ hrm ▸ hselector ▸ exec_rmImmForm op _ _ m imm t⟩
  | f7 =>
    obtain ⟨op, hop⟩ := Option.isSome_iff_exists.mp (arithOp_opField_isSome (.inr hfamily))
    simp only [hop, arithName_eq hop]
    exact (readImm_simulates s p _).bind_readsAs fun imm p => .ok ⟨_, _, _, rfl, exec_accImmForm op _ imm⟩
  | f8 =>
    obtain ⟨form, hform⟩ := Option.isSome_iff_exists.mp (jumpForm_isSome_iff.mpr hfamily)
    simp only [hform]
    exact (fetchByte_simulates s p).bind_readsAs fun j p => .ok ⟨_, _, _, rfl, exec_jumpForm hform j⟩

/-- A decode that the buffer's bytes allow has room for its instruction. -/
theorem fits_of_decodeAt_ok {s : State} {i : Instr} {p : Nat} (h : decodeAt s.cursor = .ok i (cursorFrom s p)) :
    p = s.cur + instrLength i ∧ s.cur + instrLength i ≤ s.len := by
  obtain ⟨hpos, -, hlen, hbound, -⟩ := decodeConsumesItsLength i _ _ h
  have hremaining : s.cursor.rest.length = s.len - s.cur := memRead_length _ _ _
  exact ⟨hpos, by omega⟩

/-- R272, R273: where `DecodeOne(CUR)` answers a record, the step commits it. -/
theorem step_of_pseudoDecodeOne_ok {s : State} {instr : Instruction} {p : Nat} (hst : s.st = .scanning)
    (h : pseudoDecodeOne s s.cur = .ok (instr, p)) : step s = .next (commit instr p s) := by
  obtain ⟨i, q, hdec, op, ops, x, hanswer, hexec⟩ := (h ▸ decodeAt_simulates s s.cur).eq_ok
  obtain ⟨rfl, hfits⟩ := fits_of_decodeAt_ok hdec
  cases hanswer
  rw [step_ok hst hdec, hexec, emit_fits hfits, Nat.add_sub_cancel_left]

/-- R274, R275: where `DecodeOne(CUR)` fails, the step ends the session with its error. -/
theorem step_of_pseudoDecodeOne_error {s : State} {f : Fault} (hst : s.st = .scanning)
    (h : pseudoDecodeOne s s.cur = .error f) : step s = .next (takeError f s) :=
  step_fail hst (h ▸ decodeAt_simulates s s.cur).eq_fail

theorem pseudoStep_done {s : State} (h : s.st = .done) : pseudoStep s = s := if_pos h

theorem pseudoStep_ok {s : State} {instr : Instruction} {p : Nat} (hst : s.st = .scanning)
    (h : pseudoDecodeOne s s.cur = .ok (instr, p)) : pseudoStep s = commit instr p s := by
  by_cases hp : p = s.len <;> simp [pseudoStep, hst, h, hp, commit, settleAt]

theorem pseudoStep_error {s : State} {f : Fault} (hst : s.st = .scanning)
    (h : pseudoDecodeOne s s.cur = .error f) : pseudoStep s = takeError f s := by
  cases f <;> simp [pseudoStep, hst, h, takeError, reasonOf]

/-- Settles O39: the decode simulates `DecodeOne` read by read, and what the step makes of its answer is what the pseudocode
makes of it. -/
theorem stepRefinesThePseudocode : Obligations.StepRefinesThePseudocode := by
  intro s
  cases hst : s.st with
  | done => rw [step_done hst, pseudoStep_done hst]
  | scanning =>
    cases hdec : pseudoDecodeOne s s.cur with
    | ok b => rw [step_of_pseudoDecodeOne_ok hst hdec, pseudoStep_ok hst hdec]
    | error f => rw [step_of_pseudoDecodeOne_error hst hdec, pseudoStep_error hst hdec]

/-- Settles O36: the step commits the record `DecodeOne` answers, and a commit before `LEN` leaves `ST` as it was. -/
theorem loopAppendsADecodedRecord : Obligations.LoopAppendsADecodedRecord := by
  intro s instr p hst hdec
  refine ⟨_, step_of_pseudoDecodeOne_ok hst hdec, rfl, rfl, fun hp => ?_⟩
  rw [commit_st, if_neg hp.ne, hst]

/-- Settles O37: the step takes the error `DecodeOne` fails with, which is reported as `out_of_data`. -/
theorem loopStopsOutOfData : Obligations.LoopStopsOutOfData :=
  fun _ _ _ hst hdec => step_of_pseudoDecodeOne_error hst hdec

/-- Settles O38: the step takes the error `DecodeOne` fails with, which is reported as `unrecognized_opcode`; no error moves
`CUR` (D3). -/
theorem loopStopsOnUnrecognizedOpcode : Obligations.LoopStopsOnUnrecognizedOpcode :=
  fun _ _ _ hst hdec => step_of_pseudoDecodeOne_error hst hdec

end Sys2Proof.Machine

namespace Sys2Proof.Machine

/-! ### Steps at an instruction the buffer holds (R272, R281) -/

/-- What a buffer holds at `CUR` is what is read there. -/
theorem holdsAtCursor_iff {s : State} {bs : List Byte} :
    HoldsAtCursor s bs ↔ s.cur + bs.length ≤ s.len ∧ memRead s.buf s.cur bs.length = bs := by
  refine and_congr_right fun hfits => ?_
  constructor
  · intro h
    refine List.ext_getElem? fun k => ?_
    rw [memRead_getElem?]
    split_ifs with hk
    · rw [← h k hk, byteAt_of_lt (by omega)]
    · exact (List.getElem?_eq_none (not_lt.mp hk)).symm
  · intro h k hk
    rw [byteAt_of_lt (by omega), ← h, memRead_getElem?, if_pos hk]

/-- What a buffer holds at `CUR` the decode there reads first. -/
theorem cursor_of_holdsAtCursor {s : State} {bs : List Byte} (h : HoldsAtCursor s bs) :
    s.cursor = ⟨s.cur, bs ++ (cursorFrom s (s.cur + bs.length)).rest⟩ := by
  obtain ⟨hfits, hbytes⟩ := holdsAtCursor_iff.mp h
  exact congrArg (Cursor.mk s.cur) ((cursorFrom_rest_split hfits).trans (by rw [hbytes]))

/-- Where the buffer holds a well-formed instruction, it is what the decode answers. -/
theorem decodeAt_cursor_of_holds {s : State} {i : Instr} (hwf : i.wf = true) (h : HoldsAtCursor s (encode i)) :
    ∃ c, decodeAt s.cursor = .ok i c :=
  ⟨_, (congrArg decodeAt (cursor_of_holdsAtCursor h)).trans (decodeOfEncode i _ _ hwf)⟩

/-- Where the buffer holds a well-formed instruction, its meaning emits a record of its own bytes. -/
theorem exec_of_holds {s : State} {i : Instr} (hwf : i.wf = true) (h : HoldsAtCursor s (encode i)) :
    ∃ r : Instruction, r.rawBytes = encode i ∧ r.address = s.cur ∧ exec i s = .next (afterRecord r s) := by
  obtain ⟨op, ops, x, hexec⟩ := exec_emits i
  obtain ⟨hfits, hbytes⟩ := holdsAtCursor_iff.mp h
  rw [Laws.EncodeLength.all i hwf] at hfits hbytes
  exact ⟨_, hbytes, rfl, (hexec s).trans (emit_eq_afterRecord hfits)⟩

/-- Settles O34: the decode answers the instruction (O28), and its meaning emits the buffer's bytes at `CUR`. -/
theorem stepEmitsTheInstructionAtTheCursor : Obligations.StepEmitsTheInstructionAtTheCursor := by
  intro s i hst hwf hholds
  obtain ⟨c, hdec⟩ := decodeAt_cursor_of_holds hwf hholds
  obtain ⟨r, hraw, haddr, hexec⟩ := exec_of_holds hwf hholds
  have hstep : step s = exec i s := step_ok hst hdec
  exact ⟨r, hraw, haddr, hstep.trans hexec, hstep.symm⟩

/-- A state with bytes placed at its cursor holds them there. -/
theorem holdsAtCursor_placeAtCursor {s : State} (bs : List Byte) (h : s.buf.wf) :
    HoldsAtCursor (placeAtCursor bs s) bs :=
  holdsAtCursor_iff.mpr ⟨le_max_right _ _, memRead_writeAll bs s.buf s.cur h.1⟩

/-- What holds a sequence of bytes holds each of its beginnings. -/
theorem HoldsAtCursor.of_append {s : State} {bs rest : List Byte} (h : HoldsAtCursor s (bs ++ rest)) :
    HoldsAtCursor s bs := by
  obtain ⟨hfits, hbytes⟩ := h
  rw [List.length_append] at hfits hbytes
  refine ⟨by omega, fun k hk => ?_⟩
  rw [hbytes k (by omega), List.getElem?_append_left hk]

/-- A table word that reads as `i` begins with the encoding of `i`. -/
theorem tableBytes_of_decodeTableWord {nbits w : Nat} {i : Instr} (h : decodeTableWord nbits w = some i) :
    i.wf = true ∧ ∃ rest, tableBytes nbits w = encode i ++ rest := by
  cases hdec : decode (tableBytes nbits w) with
  | fail f => simp [decodeTableWord, hdec] at h
  | ok j c =>
    obtain rfl : j = i := by simpa [decodeTableWord, hdec] using h
    obtain ⟨hbytes, hwf⟩ := encodeOfDecode j _ _ hdec
    exact ⟨hwf, _, hbytes⟩

/-- Settles O56: the placed word holds the encoding of its instruction at the cursor, and O34 says the rest. -/
theorem tableWordRunsNext : Obligations.TableWordRunsNext := by
  intro s nbits w i hbuf hword
  obtain ⟨hwf, rest, hbytes⟩ := tableBytes_of_decodeTableWord hword
  have hholds : HoldsAtCursor (s.withFetchWord nbits w) (tableBytes nbits w) := holdsAtCursor_placeAtCursor _ hbuf
  rw [hbytes] at hholds
  obtain ⟨r, hraw, haddr, hstep, hexec⟩ := stepEmitsTheInstructionAtTheCursor _ i rfl hwf hholds.of_append
  exact ⟨r, hstep, hraw, haddr, hexec.symm⟩

/-- Settles O33: `step` in `Scanning`, at a decode that succeeds. -/
theorem stepRunsTheDecodedInstruction : Obligations.StepRunsTheDecodedInstruction := fun _ _ _ => step_ok

/-- Settles O43: `step` in `Done` (D22). -/
theorem doneIsAbsorbing : Obligations.DoneIsAbsorbing := fun _ => step_done

end Sys2Proof.Machine

namespace Sys2Proof.Machine

/-! ### Steps at an instruction the buffer cuts short (R274, R301, R306) -/

/-- The read `r` fails for want of bytes, if it does. -/
def FailsShort {α : Type} (r : Read α) : Prop := ∀ f, r = .fail f → reasonOf f = .outOfData

theorem failsShort_ok {α : Type} (v : α) (c : Cursor) : FailsShort (.ok v c) := nofun

/-- Of two reads that fail only for want of bytes, so does the one after the other. -/
theorem FailsShort.andThen {α β : Type} {r : Read α} {k : α → Cursor → Read β} (h : FailsShort r)
    (hk : ∀ v c, FailsShort (k v c)) : FailsShort (r.andThen k) := by
  cases r with
  | ok v c => exact hk v c
  | fail f =>
    rintro _ ⟨⟩
    exact h f rfl

theorem FailsShort.andThen_ok {α β : Type} {r : Read α} {g : α → β} (h : FailsShort r) :
    FailsShort (r.andThen fun v c => .ok (g v) c) := h.andThen fun _ _ => failsShort_ok _ _

/-- A read of a fixed number of bytes fails only where fewer remain. -/
theorem TakesExactly.failsShort {α : Type} {n : Nat} {c : Cursor} {r : Read α} (h : TakesExactly n c r) : FailsShort r := by
  obtain ⟨hfits, hshort⟩ := h
  intro f hf
  rcases Nat.lt_or_ge c.remaining n with hn | hn
  · obtain rfl : Fault.outOfData c.pos n = f := by simpa [hshort hn] using hf
    rfl
  · obtain ⟨v, hv⟩ := hfits hn
    simp [hv] at hf

theorem fetchByte_failsShort (c : Cursor) : FailsShort c.fetchByte := (takesExactly_fetchByte c).failsShort

theorem fetchWord_failsShort (c : Cursor) : FailsShort c.fetchWord := (takesExactly_fetchWord c).failsShort

theorem readImm_failsShort (n : Nat) (c : Cursor) : FailsShort (readImm n c) := by
  unfold readImm
  split
  · exact (fetchByte_failsShort c).andThen_ok
  · exact (fetchWord_failsShort c).andThen_ok

theorem readRm_failsShort (mod : BitVec 2) (rm : BitVec 3) (c : Cursor) : FailsShort (readRm mod rm c) := by
  intro f hf
  exact (takesExactly_resolveRm mod rm 0 c).failsShort f (by rw [resolveRm, hf, Read.fail_andThen])

theorem readModRm_failsShort (c : Cursor) : FailsShort (readModRm c) :=
  (fetchByte_failsShort c).andThen fun _ c => (readRm_failsShort _ _ c).andThen_ok

/-- R191: a decode that fails lacks bytes, or has read an opcode or selector that names nothing and fails alike whatever
bytes follow. -/
theorem decodeAt_fail_cases {p : Nat} {bs : List Byte} {f : Fault} (h : decodeAt ⟨p, bs⟩ = .fail f) :
    reasonOf f = .outOfData ∨ ∀ rest, decodeAt ⟨p, bs ++ rest⟩ = .fail f := by
  cases bs with
  | nil =>
    rw [decodeAt_nil] at h
    cases h
    exact .inl rfl
  | cons b0 bs =>
    cases hfamily : classify b0 with
    | unrecognized =>
      rw [decodeAt_unrecognized _ _ hfamily] at h
      exact .inr fun rest => (decodeAt_unrecognized _ _ hfamily).trans h
    | f1 =>
      rw [opcode_movRmReg_iff.mp ⟨hfamily, rfl, rfl⟩, decodeAt_movRmReg] at h
      exact .inl ((readModRm_failsShort _).andThen_ok f h)
    | f2 =>
      rw [opcode_movRmImm_iff.mp ⟨hfamily, rfl⟩, decodeAt_movRmImm] at h
      exact .inl ((readModRm_failsShort _).andThen (fun _ _ => (readImm_failsShort _ _).andThen_ok) f h)
    | f3 =>
      rw [opcode_movRegImm_iff.mp ⟨hfamily, rfl, rfl⟩, decodeAt_movRegImm] at h
      exact .inl ((readImm_failsShort _ _).andThen_ok f h)
    | f4Load =>
      rw [opcode_movAccMem_iff.mp ⟨hfamily, rfl⟩, decodeAt_movAccMem] at h
      exact .inl ((fetchWord_failsShort _).andThen_ok f h)
    | f4Store =>
      rw [opcode_movMemAcc_iff.mp ⟨hfamily, rfl⟩, decodeAt_movMemAcc] at h
      exact .inl ((fetchWord_failsShort _).andThen_ok f h)
    | f5 =>
      obtain ⟨op, hop⟩ := Option.isSome_iff_exists.mp (arithOp_opField_isSome (.inl hfamily))
      rw [opcode_rmReg_iff.mp ⟨hfamily, hop, rfl, rfl⟩, decodeAt_rmReg] at h
      exact .inl ((readModRm_failsShort _).andThen_ok f h)
    | f6 =>
      cases bs with
      | nil =>
        rw [decodeAt_rmImm_last _ hfamily] at h
        cases h
        exact .inl rfl
      | cons b1 bs =>
        cases hop : arithOp (modeRegRm b1).2.1 with
        | none =>
          rw [decodeAt_rmImm_unknown _ _ hfamily hop] at h
          exact .inr fun rest => (decodeAt_rmImm_unknown _ _ hfamily hop).trans h
        | some op =>
          rw [opcode_rmImm_iff.mp ⟨hfamily, rfl, rfl⟩, ← modRmByte_modeRegRm b1, ← arithOp_eq_some_iff.mp hop,
            decodeAt_rmImm] at h
          exact .inl ((readRm_failsShort _ _ _).andThen (fun _ _ => (readImm_failsShort _ _).andThen_ok) f h)
    | f7 =>
      obtain ⟨op, hop⟩ := Option.isSome_iff_exists.mp (arithOp_opField_isSome (.inr hfamily))
      rw [opcode_accImm_iff.mp ⟨hfamily, hop, rfl⟩, decodeAt_accImm] at h
      exact .inl ((readImm_failsShort _ _).andThen_ok f h)
    | f8 =>
      obtain ⟨form, hform⟩ := Option.isSome_iff_exists.mp (jumpForm_isSome_iff.mpr hfamily)
      rw [decodeAt_jump _ _ hform] at h
      exact .inl ((fetchByte_failsShort _).andThen_ok f h)

/-- A well-formed instruction cut short decodes to nothing and is short of data. -/
theorem decodeAt_cut {i : Instr} {a k : Nat} (hwf : i.wf = true) (hk : k < instrLength i) :
    ∃ f, decodeAt ⟨a, (encode i).take k⟩ = .fail f ∧ reasonOf f = .outOfData := by
  have hwhole : decodeAt ⟨a, (encode i).take k ++ (encode i).drop k⟩ = .ok i ⟨a + (encode i).length, []⟩ := by
    simpa using decodeOfEncode i a [] hwf
  cases hdec : decodeAt ⟨a, (encode i).take k⟩ with
  | fail f =>
    refine ⟨f, rfl, (decodeAt_fail_cases hdec).resolve_right fun hstable => ?_⟩
    rw [hstable] at hwhole
    cases hwhole
  | ok j c =>
    exfalso
    obtain ⟨hbytes, hwfj⟩ := encodeOfDecode j _ _ hdec
    change (encode i).take k = encode j ++ c.rest at hbytes
    rw [hbytes, List.append_assoc, decodeOfEncode j _ _ hwfj] at hwhole
    obtain rfl : j = i := by injection hwhole
    have hlen := congrArg List.length hbytes
    rw [List.length_take, List.length_append, Laws.EncodeLength.all j hwf] at hlen
    omega

/-- Settles O42: what the cursor holds is the cut instruction and nothing more, so the decode is short of data. -/
theorem cutInstructionEndsTheSession : Obligations.CutInstructionEndsTheSession := by
  intro s i k hst hwf _ hk hlen hholds
  obtain ⟨f, hdec, hreason⟩ := decodeAt_cut (a := s.cur) hwf hk
  have hcut : ((encode i).take k).length = k := by
    rw [List.length_take, Laws.EncodeLength.all i hwf, Nat.min_eq_left hk.le]
  have hcursor := cursor_of_holdsAtCursor hholds
  rw [hcut, ← hlen, cursorFrom_rest_of_byteAt_none (if_neg (lt_irrefl _)), List.append_nil] at hcursor
  rw [step_fail hst ((congrArg decodeAt hcursor).trans hdec)]
  exact hreason ▸ rfl

end Sys2Proof.Machine

namespace Sys2Proof.Machine

/-! ### Runs (R277, R279, R280) -/

theorem run_done {s : State} (h : s.st = .done) (n : Nat) : run n s = .next s := by
  cases n <;> simp [run, h]

theorem run_scanning {s t : State} {n : Nat} (h : s.st = .scanning) (ht : step s = .next t) :
    run (n + 1) s = run n t := by
  simp [run, h, ht]

/-- A step of a scanning loop ends the session with the records it has, or adds one record and moves `CUR` by two bytes
at least, within the buffer. -/
theorem step_progress {s t : State} (hst : s.st = .scanning) (h : step s = .next t) :
    (t.st = .done ∧ t.out.length = s.out.length) ∨
      (s.cur + 2 ≤ t.cur ∧ t.cur ≤ s.len ∧ t.len = s.len ∧ t.out.length = s.out.length + 1) := by
  rcases step_next_cases h with ⟨hdone, -⟩ | ⟨-, i, c, r, -, hfit, -, -, rfl⟩ | ⟨-, f, rfl⟩
  · rw [hdone] at hst
    cases hst
  · exact .inr ⟨Nat.add_le_add_left (instrLength_bounds i).1 _, hfit, rfl, by simp⟩
  · exact .inl ⟨rfl, rfl⟩

/-- A run of more steps than half the bytes that remain ends, with at most half as many records more. -/
theorem run_ends {n : Nat} {s : State} (hn : s.len - s.cur < 2 * n) :
    ∃ t, run n s = .next t ∧ t.st = .done ∧ t.out.length ≤ s.out.length + (s.len - s.cur) / 2 := by
  induction n generalizing s with
  | zero => omega
  | succ n ih =>
    cases hst : s.st with
    | done => exact ⟨s, run_done hst _, hst, Nat.le_add_right _ _⟩
    | scanning =>
      have hstep := stepRefinesThePseudocode s
      rw [run_scanning hst hstep]
      rcases step_progress hst hstep with ⟨hdone, hout⟩ | ⟨hcur, hle, hlen, hout⟩
      · exact ⟨_, run_done hdone _, hdone, by omega⟩
      · obtain ⟨t, hrun, hdone, hmore⟩ := ih (s := pseudoStep s) (by omega)
        exact ⟨t, hrun, hdone, by omega⟩

/-- Settles O52: half the bytes that remain, rounded down, and one more are steps enough. -/
theorem everyRunEnds : Obligations.EveryRunEnds := fun _ _ => run_ends (by omega)

/-- What every step keeps a run keeps. -/
theorem run_induction {P : State → Prop} (hstep : ∀ s t, P s → step s = .next t → P t) {n : Nat} {s u : State}
    (hs : P s) (h : run n s = .next u) : P u := by
  induction n generalizing s with
  | zero =>
    cases h
    exact hs
  | succ n ih =>
    cases hst : s.st with
    | done =>
      rw [run_done hst] at h
      cases h
      exact hs
    | scanning =>
      have ht := stepRefinesThePseudocode s
      rw [run_scanning hst ht] at h
      exact ih (hstep s _ hs ht) h

/-- A session over loaded bytes: the block's invariant, and the buffer, length and start of the reset. -/
def SessionOver (bytes : List Byte) (start : Nat) (s : State) : Prop :=
  Inv s ∧ s.buf = Memory.load bytes ∧ s.len = bytes.length ∧ s.start = start

/-- A step leaves `START` as it is (R53). -/
theorem step_start {s t : State} (h : step s = .next t) : t.start = s.start := by
  rcases step_next_cases h with ⟨-, rfl⟩ | ⟨-, i, c, r, -, -, -, -, rfl⟩ | ⟨-, f, rfl⟩ <;> simp

/-- Every step keeps a session what it is (O51, R46, R48, R53). -/
theorem step_sessionOver {bytes : List Byte} {start : Nat} {s t : State} (hs : SessionOver bytes start s)
    (h : step s = .next t) : SessionOver bytes start t := by
  obtain ⟨hinv, hbuf, hlen, hstart⟩ := hs
  exact ⟨stepKeepsTheInvariant s t hinv h, (step_buf h).trans hbuf, (step_len h).trans hlen, (step_start h).trans hstart⟩

/-- A reset over loaded bytes begins a session over them (O50, R330). -/
theorem reset_sessionOver {bytes : List Byte} {start : Nat} {s t : State}
    (h : transact (.reset (.loaded bytes) start) s = .next t) : SessionOver bytes start t := by
  obtain ⟨-, rfl⟩ := transact_reset_loaded_eq_next.mp h
  exact ⟨(everyResetEstablishesTheInvariant s _ start).1 bytes h, rfl, rfl, rfl⟩

/-- Part of a loaded buffer is read back as it was loaded. -/
theorem memRead_load_drop {bytes : List Byte} {a n : Nat} (h : a + n ≤ bytes.length) :
    memRead (Memory.load bytes) a n = (bytes.drop a).take n := by
  obtain ⟨k, hk⟩ := Nat.exists_eq_add_of_le h
  have hload := memRead_load bytes
  rw [hk, memRead_add, memRead_add, Nat.zero_add] at hload
  conv_rhs => rw [← hload, List.append_assoc, List.drop_left' (memRead_length _ _ _), List.take_left' (memRead_length _ _ _)]

/-- R280: once `Done`, the reason tells a full decode from an early end. -/
theorem reason_iff_of_done {s : State} (h : Inv s) (hdone : s.st = .done) :
    (s.reason = .exhausted ↔ s.cur = s.len) ∧
      ((s.reason = .outOfData ∨ s.reason = .unrecognizedOpcode) ↔ s.cur < s.len) := by
  obtain ⟨-, -, ⟨-, hended, hexhausted⟩, hearly, -, -⟩ := h
  have hnone := hended hdone
  cases hreason : s.reason with
  | none => exact absurd hreason hnone
  | exhausted => simp [hexhausted hreason]
  | outOfData =>
    have := hearly (.inl hreason)
    simp [this, this.ne]
  | unrecognizedOpcode =>
    have := hearly (.inr hreason)
    simp [this, this.ne]

/-- Settles O53: a run keeps the invariant and the loaded buffer, and the invariant tells the ends of a session apart. -/
theorem endOfARunIsDistinguishable : Obligations.EndOfARunIsDistinguishable := by
  intro bytes start n s t u hreset hrun hdone
  obtain ⟨hinv, hbuf, hlen, hstart⟩ := run_induction (fun _ _ => step_sessionOver) (reset_sessionOver hreset) hrun
  obtain ⟨hfull, hearly⟩ := reason_iff_of_done hinv hdone
  obtain ⟨-, ⟨hle, hend⟩, -, -, ⟨hraw, htiles⟩, -⟩ := hinv
  rw [hbuf, hstart, memRead_load_drop (by omega)] at hraw
  exact ⟨hlen ▸ hfull, hlen ▸ hearly, hraw, hstart ▸ htiles⟩

end Sys2Proof.Machine

namespace Sys2Proof.Machine

/-! ### Short decodes, answering steps and resets (R301, R304, R330 to R333) -/

/-- Only `OutOfData` is reported as `out_of_data` (R305). -/
theorem reasonOf_eq_outOfData_iff {f : Fault} : reasonOf f = .outOfData ↔ ∃ pos need, f = .outOfData pos need := by
  cases f <;> simp [reasonOf]

/-- Settles O32: the decode of a cut instruction fails with a fault reported as `out_of_data`, which only
`OutOfData` is. -/
theorem cutInstructionRaisesOutOfData : Obligations.CutInstructionRaisesOutOfData := by
  intro i a k hwf _ hk
  obtain ⟨f, hdec, hreason⟩ := decodeAt_cut (a := a) hwf hk
  obtain ⟨pos, need, rfl⟩ := reasonOf_eq_outOfData_iff.mp hreason
  exact ⟨pos, need, hdec⟩

/-- Settles O44: the state a step answers is the one the spec's pseudocode makes (O39). -/
theorem everyStepAnswersAState : Obligations.EveryStepAnswersAState := fun s => ⟨_, stepRefinesThePseudocode s⟩

/-- A session over loaded bytes holds exactly those bytes (R70). -/
theorem byteAt_beginSession (bytes : List Byte) (start a : Nat) (s : State) :
    (beginSession bytes start s).byteAt a = bytes[a]? := by
  calc (beginSession bytes start s).byteAt a = (memRead (Memory.load bytes) 0 bytes.length)[a]? := by
        rw [memRead_getElem?, Nat.zero_add]
        rfl
    _ = bytes[a]? := by rw [memRead_load]

/-- Of the session before it, `restart` keeps the buffer and its length alone (R332). -/
theorem restart_congr {s s' : State} (start : Nat) (hbuf : s'.buf = s.buf) (hlen : s'.len = s.len) :
    restart start s' = restart start s := by
  simp only [restart, hbuf, hlen]

/-- A session begun scans where a byte remains and is done at the length (R330, R331). -/
theorem restart_loop (start : Nat) (s : State) :
    (start < s.len → (restart start s).st = .scanning ∧ (restart start s).reason = .none) ∧
      (start = s.len → (restart start s).st = .done ∧ (restart start s).reason = .exhausted) :=
  ⟨fun h => ⟨if_pos h, if_pos h⟩, fun h => ⟨if_neg h.not_lt, if_neg h.not_lt⟩⟩

/-- Settles O47: a reset that answers is a `restart`, over the loaded buffer whatever the state was and over the held buffer
alike from states that hold the same. -/
theorem sessionBeginsAsReset : Obligations.SessionBeginsAsReset := by
  constructor
  · intro bytes start s s' hstart
    exact ⟨beginSession bytes start s, transact_reset_loaded_eq_next.mpr ⟨hstart, rfl⟩,
      transact_reset_loaded_eq_next.mpr ⟨hstart, rfl⟩, (byteAt_beginSession bytes start · s), rfl, rfl, rfl, rfl,
      restart_loop start { s with buf := Memory.load bytes, len := bytes.length }⟩
  · intro start s s' hbuf hlen hstart
    exact ⟨restart start s, transact_reset_held_eq_next.mpr ⟨hstart, rfl⟩,
      transact_reset_held_eq_next.mpr ⟨hlen ▸ hstart, restart_congr start hbuf hlen⟩, rfl, byteAt_congr rfl rfl, rfl, rfl,
      rfl, rfl, restart_loop start s⟩

end Sys2Proof.Machine
